-- ==== Sys2Proof/Word.lean ====
section
/-! DEFINITION. The widths the block works with (00_scope.md R6, R7). Bit 0 is the least significant bit. -/

namespace Sys2Proof

/-- A byte of the stream (R6: byte width 8 bits). -/
abbrev Byte := BitVec 8

/-- A 16-bit pattern: the width of every immediate (R6: immediate width 16 bits, two's complement). -/
abbrev Word := BitVec 16

end Sys2Proof
end

