-- ==== Sys2Proof/Config.lean ====
section
/-! DEFINITION. The types of the block's parameters (00_scope.md R6): kinds, opcode table, register catalog, policy.
There is no free value: no rule leaves the result of an instruction undefined (INVENTORY.md). -/

namespace Sys2Proof

/-- The closed enumeration of Instruction Kinds, in the order of their codes (30_encoding.md R80). -/
inductive Kind where
  | registerMemoryMove
  | immediateToRegister
  | immediateToRegisterOrMemory
  | memoryToAccumulator
  | accumulatorToMemory
  | arithmeticAdd
  deriving DecidableEq, Repr

/-- Operand width: byte is 8 bits, word is 16 bits (40_classifier_extractor_catalog.md R113). -/
inductive Width where
  | byte
  | word
  deriving DecidableEq, Repr

/-- The policy register (10_state.md R28). -/
inductive Policy where
  | strict
  | recoverable
  deriving DecidableEq, Repr

/-- One entry of the opcode table register `T` (10_state.md R26). The 3-bit kind code is held as the kind it
stands for: codes 6 and 7 are refused at start (R102 `kindCode`), so no accepted table holds one. -/
structure OpcodeEntry where
  pattern : Byte
  mask : Byte
  kind : Kind
  deriving DecidableEq, Repr

/-- The opcode table: entries in the order in which they are checked (10_state.md R26). -/
abbrev OpcodeTable := List OpcodeEntry

/-- The register catalog register `C`: 16 names, indexed by a 3-bit field and a width (10_state.md R27). -/
structure Catalog where
  byteNames : Vector String 8
  wordNames : Vector String 8
  deriving DecidableEq, Repr

/-- `BUF_MAX`, the size of the input buffer in bytes (00_scope.md R6). -/
abbrev Config.bufMax : Nat := 256

end Sys2Proof
end

