-- ==== Sys2Proof/Syntax.lean ====
section
/-! DEFINITION. The instructions: one constructor per row of spec/opcode_table.json, with the fields its encoding
holds (30_encoding.md R71-R75). -/

namespace Sys2Proof

/-- An instruction as the block reads it from the stream. `d` is the direction flag and `w` the width flag.
`mod` is any 2-bit value: a value other than 11 is an instruction too, the one that raises
`UnsupportedAddressingMode` (30_encoding.md R73). The `w` of the three kinds of format U is the bit the opcode table
names; the block reads no field of such an instruction (R75), and no meaning looks at it. -/
inductive Instr where
  /-- Kind 0, `mov`, format RM: `100010dw mod reg rm` (41_register_form.md R132). -/
  | registerMemoryMove (d w : Bool) (mod : BitVec 2) (reg rm : BitVec 3)
  /-- Kind 1, `mov`, formats IR8 and IR16: `1011wrrr` and 1 or 2 immediate bytes (42_immediate_to_register.md R155).
  `imm` is the 16-bit pattern the immediate bytes give (R152). -/
  | immediateToRegister (w : Bool) (reg : BitVec 3) (imm : Word)
  /-- Kind 2, format U: `1100011w` (43_unimplemented_kinds.md R171). -/
  | immediateToRegisterOrMemory (w : Bool)
  /-- Kind 3, format U: `1010000w` (43_unimplemented_kinds.md R172). -/
  | memoryToAccumulator (w : Bool)
  /-- Kind 4, format U: `1010001w` (43_unimplemented_kinds.md R173). -/
  | accumulatorToMemory (w : Bool)
  /-- Kind 5, `add`, format RM: `000000dw mod reg rm` (41_register_form.md R133). -/
  | arithmeticAdd (d w : Bool) (mod : BitVec 2) (reg rm : BitVec 3)
  deriving DecidableEq, Repr

end Sys2Proof
end

