-- ==== Sys2Proof/WellFormed.lean ====
section
/-! DEFINITION. Which terms of `Instr` an encoding can stand for. Every field's width is in its type; what is left is
the byte-width immediate, which is the sign extension of one byte (42_immediate_to_register.md R152). -/

namespace Sys2Proof

/-- The immediate of a byte-width instruction is some byte, sign-extended to 16 bits (R152). -/
def immediateFits (w : Bool) (imm : Word) : Bool :=
  w || (imm.setWidth 8).signExtend 16 == imm

/-- A well-formed instruction. -/
def Instr.wf : Instr → Bool
  | .registerMemoryMove _ _ _ _ _ => true
  | .immediateToRegister w _ imm => immediateFits w imm
  | .immediateToRegisterOrMemory _ => true
  | .memoryToAccumulator _ => true
  | .accumulatorToMemory _ => true
  | .arithmeticAdd _ _ _ _ _ => true

end Sys2Proof
end

