-- ==== Sys2Proof/Decode.lean ====
section
/-! DEFINITION. From bytes to instructions: the opcode classifier, the field extractor, the immediate reader, the
default tables, the decoder (total, rejecting by name), the encoder, and the host's view of one word
(30_encoding.md, 40_classifier_extractor_catalog.md, 42_immediate_to_register.md §1). -/

namespace Sys2Proof

/-! ## Field extractor (40_classifier_extractor_catalog.md §2) -/

/-- `extract(b, mask, shift)`: the mask is in place, before the shift (R110). -/
def extract (b mask : Byte) (shift : Nat) : Byte := (b &&& mask) >>> shift

/-- `flag(b, mask)` (R111). -/
def flag (b mask : Byte) : Bool := b &&& mask != 0

/-! The fixed uses of the extractor (R112). -/

/-- `mod` of an addressing-mode byte. -/
def modField (b1 : Byte) : BitVec 2 := (extract b1 0xC0 6).setWidth 2
/-- `reg` of an addressing-mode byte. -/
def regField (b1 : Byte) : BitVec 3 := (extract b1 0x38 3).setWidth 3
/-- `rm` of an addressing-mode byte. -/
def rmField (b1 : Byte) : BitVec 3 := (extract b1 0x07 0).setWidth 3
/-- `d` of a format RM opcode byte. -/
def directionFlag (b0 : Byte) : Bool := flag b0 0x02
/-- `w` of a format RM opcode byte. -/
def widthFlag (b0 : Byte) : Bool := flag b0 0x01
/-- `w` of a format IR opcode byte. -/
def immWidthFlag (b0 : Byte) : Bool := flag b0 0x08
/-- `reg` of a format IR opcode byte. -/
def immRegField (b0 : Byte) : BitVec 3 := (extract b0 0x07 0).setWidth 3

/-! ## Kinds, opcode table and classifier -/

/-- The kind codes (30_encoding.md R80). -/
def Kind.code : Kind → BitVec 3
  | .registerMemoryMove => 0
  | .immediateToRegister => 1
  | .immediateToRegisterOrMemory => 2
  | .memoryToAccumulator => 3
  | .accumulatorToMemory => 4
  | .arithmeticAdd => 5

/-- The kind a code stands for; codes 6 and 7 are not kinds (30_encoding.md R80). -/
def Kind.ofCode (c : BitVec 3) : Option Kind :=
  match c.toNat with
  | 0 => some .registerMemoryMove
  | 1 => some .immediateToRegister
  | 2 => some .immediateToRegisterOrMemory
  | 3 => some .memoryToAccumulator
  | 4 => some .accumulatorToMemory
  | 5 => some .arithmeticAdd
  | _ => none

/-- Mask-and-compare of one entry against an opcode byte (R100). -/
def OpcodeEntry.hits (e : OpcodeEntry) (b : Byte) : Bool := b &&& e.mask == e.pattern

/-- `classify(T, b)`: the kind of the first entry that hits, `none` for Unrecognized (R100). -/
def classify : OpcodeTable → Byte → Option Kind
  | [], _ => none
  | e :: es, b => if e.hits b then some e.kind else classify es b

/-- The default opcode table, in the order in which the source lists the kinds (R103). -/
def defaultTable : OpcodeTable :=
  [⟨0x88, 0xFC, .registerMemoryMove⟩,
   ⟨0xB0, 0xF0, .immediateToRegister⟩,
   ⟨0xC6, 0xFE, .immediateToRegisterOrMemory⟩,
   ⟨0xA0, 0xFE, .memoryToAccumulator⟩,
   ⟨0xA2, 0xFE, .accumulatorToMemory⟩,
   ⟨0x00, 0xFC, .arithmeticAdd⟩]

/-- The default register catalog (R116). -/
def defaultCatalog : Catalog where
  byteNames := #v["al", "cl", "dl", "bl", "ah", "ch", "dh", "bh"]
  wordNames := #v["ax", "cx", "dx", "bx", "sp", "bp", "si", "di"]

/-- `length(k, b0)`: the bytes an instruction of kind `k` with opcode byte `b0` consumes (30_encoding.md R82). -/
def Kind.length (k : Kind) (b0 : Byte) : Nat :=
  match k with
  | .registerMemoryMove => 2
  | .arithmeticAdd => 2
  | .immediateToRegister => if immWidthFlag b0 then 3 else 2
  | .immediateToRegisterOrMemory => 1
  | .memoryToAccumulator => 1
  | .accumulatorToMemory => 1

/-- The kind an instruction belongs to (30_encoding.md R80). -/
def Instr.kind : Instr → Kind
  | .registerMemoryMove _ _ _ _ _ => .registerMemoryMove
  | .immediateToRegister _ _ _ => .immediateToRegister
  | .immediateToRegisterOrMemory _ => .immediateToRegisterOrMemory
  | .memoryToAccumulator _ => .memoryToAccumulator
  | .accumulatorToMemory _ => .accumulatorToMemory
  | .arithmeticAdd _ _ _ _ _ => .arithmeticAdd

/-- The bytes an instruction consumes (30_encoding.md R70). -/
def Instr.length : Instr → Nat
  | .registerMemoryMove _ _ _ _ _ => 2
  | .immediateToRegister w _ _ => if w then 3 else 2
  | .immediateToRegisterOrMemory _ => 1
  | .memoryToAccumulator _ => 1
  | .accumulatorToMemory _ => 1
  | .arithmeticAdd _ _ _ _ _ => 2

/-! ## Immediate reader (42_immediate_to_register.md §1) -/

/-- `concat(hi, lo)`: the low byte OR the shifted high byte (00_scope.md R8, R152; 90_conflicts.md C1). -/
def concatBytes (hi lo : Byte) : Word := (hi.setWidth 16 <<< 8) ||| lo.setWidth 16

/-- `sext_16` of a byte (00_scope.md R8). -/
def sext16 (lo : Byte) : Word := lo.signExtend 16

/-- `signed16`: the integer a 16-bit pattern denotes in two's complement (00_scope.md R8). -/
def signed16 (v : Word) : Int := if v < 0x8000 then v.toNat else (v.toNat : Int) - 0x10000

/-- The immediate reader on the bytes of the stream that follow the fields before it: the 16-bit pattern and the
bytes after it, or `none` for `TruncatedStream`, when no byte is read (R150, R151). Low byte first (R54). -/
def readImm : Bool → List Byte → Option (Word × List Byte)
  | false, lo :: rest => some (sext16 lo, rest)
  | true, lo :: hi :: rest => some (concatBytes hi lo, rest)
  | _, _ => none

/-! ## Decoder -/

/-- Why the decoder gives no instruction. -/
inductive DecodeError where
  /-- There is no opcode byte. -/
  | emptyStream
  /-- The opcode byte matches no table entry (30_encoding.md R84). -/
  | unrecognized
  /-- The bytes end inside the instruction (60_exceptions.md R220). -/
  | truncated
  deriving DecidableEq, Repr

/-- Format RM: the opcode byte's flags and the addressing-mode byte's fields (30_encoding.md R71, R72). -/
def decodeRegisterForm (mk : Bool → Bool → BitVec 2 → BitVec 3 → BitVec 3 → Instr) (b0 : Byte) :
    List Byte → Except DecodeError (Instr × List Byte)
  | [] => .error .truncated
  | b1 :: rest =>
    .ok (mk (directionFlag b0) (widthFlag b0) (modField b1) (regField b1) (rmField b1), rest)

/-- Formats IR8 and IR16: fields of the opcode byte and the immediate (30_encoding.md R74). -/
def decodeImmediateForm (b0 : Byte) (bs : List Byte) : Except DecodeError (Instr × List Byte) :=
  match readImm (immWidthFlag b0) bs with
  | none => .error .truncated
  | some (imm, rest) => .ok (.immediateToRegister (immWidthFlag b0) (immRegField b0) imm, rest)

/-- The instruction of kind `k` at the head of the bytes, and the bytes after it. Only the bytes of the instruction are
looked at (20_memory.md R58). -/
def decodeOperands (k : Kind) : List Byte → Except DecodeError (Instr × List Byte)
  | [] => .error .emptyStream
  | b0 :: bs =>
    match k with
    | .registerMemoryMove => decodeRegisterForm .registerMemoryMove b0 bs
    | .immediateToRegister => decodeImmediateForm b0 bs
    | .immediateToRegisterOrMemory => .ok (.immediateToRegisterOrMemory (widthFlag b0), bs)
    | .memoryToAccumulator => .ok (.memoryToAccumulator (widthFlag b0), bs)
    | .accumulatorToMemory => .ok (.accumulatorToMemory (widthFlag b0), bs)
    | .arithmeticAdd => decodeRegisterForm .arithmeticAdd b0 bs

/-- The decoder: classify the opcode byte under the table, then read the operands of its kind. -/
def decode (T : OpcodeTable) : List Byte → Except DecodeError (Instr × List Byte)
  | [] => .error .emptyStream
  | b0 :: bs =>
    match classify T b0 with
    | none => .error .unrecognized
    | some k => decodeOperands k (b0 :: bs)

/-! ## Encoder (the bytes under the default table) -/

/-- A format RM opcode byte: 6 opcode bits, `d`, `w` (30_encoding.md R71). -/
def registerFormOpcode (op : BitVec 6) (d w : Bool) : Byte := op ++ BitVec.ofBool d ++ BitVec.ofBool w

/-- The addressing-mode byte (30_encoding.md R72). -/
def addressingModeByte (mod : BitVec 2) (reg rm : BitVec 3) : Byte := mod ++ reg ++ rm

/-- A format IR opcode byte: `1011`, `w`, `reg` (30_encoding.md R74). -/
def immediateOpcode (w : Bool) (reg : BitVec 3) : Byte := 0b1011#4 ++ BitVec.ofBool w ++ reg

/-- A format U opcode byte: 7 opcode bits and the bit the opcode table calls `w` (30_encoding.md R75, R81). -/
def unimplementedOpcode (op : BitVec 7) (w : Bool) : Byte := op ++ BitVec.ofBool w

/-- The bytes of an instruction, first byte first, under the default table (30_encoding.md R70-R75, R81). -/
def encode : Instr → List Byte
  | .registerMemoryMove d w mod reg rm =>
    [registerFormOpcode 0b100010 d w, addressingModeByte mod reg rm]
  | .immediateToRegister w reg imm =>
    if w then [immediateOpcode w reg, imm.setWidth 8, (imm >>> 8).setWidth 8]
    else [immediateOpcode w reg, imm.setWidth 8]
  | .immediateToRegisterOrMemory w => [unimplementedOpcode 0b1100011 w]
  | .memoryToAccumulator w => [unimplementedOpcode 0b1010000 w]
  | .accumulatorToMemory w => [unimplementedOpcode 0b1010001 w]
  | .arithmeticAdd d w mod reg rm =>
    [registerFormOpcode 0b000000 d w, addressingModeByte mod reg rm]

/-! ## The host's view of one table word -/

/-- No instruction is longer than three bytes (30_encoding.md R70). -/
def longestInstr : Nat := 3

/-- The bytes of a word numbered as the opcode table numbers it: bit 0 is the least significant bit of the first byte,
the second byte is bits 15..8. Every bit at or above `nbits` is 0; the bytes go up to the longest instruction. -/
def tableWordBytes (nbits w : Nat) : List Byte :=
  (List.range longestInstr).map fun i => BitVec.ofNat 8 ((w % 2 ^ nbits) / 256 ^ i)

/-- The instruction the decoder reads from a table word under the default table, `none` where it refuses. -/
def decodeTableWord (nbits w : Nat) : Option Instr :=
  match decode defaultTable (tableWordBytes nbits w) with
  | .ok (i, _) => some i
  | .error _ => none

end Sys2Proof
end

