-- ==== Sys2Proof/Machine/State.lean ====
section
/-! DEFINITION. The state of the block (10_state.md R20 to R35), plain data, the reasons a step can stop, and the state
after reset (R39; 70_reset_and_hazards.md R250). -/

namespace Sys2Proof.Machine

/-- The five error conditions (60_exceptions.md R220). -/
inductive Condition where
  | unknownOpcode
  | notImplemented
  | unsupportedAddressingMode
  | truncatedStream
  | iterationLimitExceeded
  deriving DecidableEq, Repr

/-- The two conditions the policy may skip (60_exceptions.md R223); the only reasons of an error record (R32). -/
inductive NonFatal where
  | notImplemented
  | unsupportedAddressingMode
  deriving DecidableEq, Repr

/-- The engine state register `st` (10_state.md R21). -/
inductive EngineState where
  | awaitingOpcode
  | decodingOperands (k : Kind)
  | done
  | failed (e : Condition) (o : Nat)
  deriving DecidableEq, Repr

/-- The mnemonics of decoded records (30_encoding.md R83). -/
inductive Mnemonic where
  | mov
  | add
  deriving DecidableEq, Repr

/-- A register descriptor (10_state.md R34). -/
structure RegisterDescriptor where
  name : String
  width : Width
  index : BitVec 3
  deriving DecidableEq, Repr

/-- An operand of a decoded record: there is no memory variant (10_state.md R35). An immediate is the signed integer
(42_immediate_to_register.md R153). -/
inductive Operand where
  | reg (d : RegisterDescriptor)
  | imm (v : Int)
  deriving DecidableEq, Repr

/-- An output record (10_state.md R31, R32). -/
inductive Record where
  | decoded (offset length : Nat) (kind : Kind) (mnemonic : Mnemonic) (dst src : Operand)
  | error (reason : NonFatal) (offset length : Nat)
  deriving DecidableEq, Repr

/-- The contents of the input buffer, in one canonical form: addresses strictly rising, below 256, and no entry equal
to what an unlisted address reads as (`Memory.wf`, Machine/Ops.lean). -/
abbrev Memory := List Host.Cell

/-- The state of the block: the ten elements of R20, under the spec's names. -/
structure State where
  /-- The input buffer, 256 bytes (R24; 20_memory.md R50). -/
  buf : Memory
  /-- The valid length, 0 to 256 (R25; decision D24). -/
  len : Fin 257
  /-- The engine state register (R21). -/
  st : EngineState
  /-- The byte cursor (R22). -/
  cur : Nat
  /-- The iteration counter (R23). -/
  iter : Nat
  /-- The output records, oldest first (R30). -/
  out : List Record
  /-- The opcode table register (R26). -/
  T : OpcodeTable
  /-- The register catalog register (R27). -/
  C : Catalog
  /-- The policy register (R28). -/
  policy : Policy
  /-- The iteration limit register, `none` for no limit (R29). -/
  maxIterations : Option Nat
  deriving DecidableEq, Repr

/-- Why the machine has no step. The spec's five conditions are none of these: they are values of `st`. -/
inductive Fault where
  /-- Raised by `step` in `Done` and `Failed`: no step is defined from a terminal state (44_engine.md R196). Safe: the
  hardware has no step there either. -/
  | noStep
  /-- Raised by `step` where `ReadByte` is required at an offset that is not below `len` (20_memory.md R52). It cannot
  happen in a state of a run (R53, R193). Safe: the model stops. -/
  | readPastStream
  deriving DecidableEq, Repr

/-- The named checks of a start (40_classifier_extractor_catalog.md R102, R115). -/
inductive StartCheck where
  | kindCode
  | patternInMask
  | specificFirst
  | distinctNames
  deriving DecidableEq, Repr

/-- Why the model gives no meaning. -/
inductive Refusal where
  /-- Raised by `exec` for an instruction without a meaning. No instruction of this model is refused so. Safe. -/
  | notModelled (mnemonic : String)
  /-- Raised by `start` when the supplied table or catalog fails a check; it names the failed checks
  (70_reset_and_hazards.md R251). Safe: no run begins. -/
  | startRefused (failed : List StartCheck)
  deriving DecidableEq, Repr

/-- The state right after reset, that is after a start (R39, R250). The spec gives `st`, `cur`, `iter`, `out` and the
defaults of `T` and `C`. DESIGN CHOICE, the host having supplied nothing: an empty stream (log 4), policy `Strict`
(log 2), no iteration limit (log 3). -/
def State.reset : State where
  buf := []
  len := 0
  st := .awaitingOpcode
  cur := 0
  iter := 0
  out := []
  T := defaultTable
  C := defaultCatalog
  policy := .strict
  maxIterations := none

end Sys2Proof.Machine
end

