-- ==== Sys2Proof/Machine/Flags.lean ====
section
/-! DEFINITION. What the two flags of an instruction select. The block has no condition codes or status flags: `d` and
`w` are bits of the instruction being decoded (10_state.md R37). -/

namespace Sys2Proof.Machine

/-- The width flag set is word, clear is byte (40_classifier_extractor_catalog.md R113). -/
def widthOf (w : Bool) : Width := if w then .word else .byte

/-- The direction flag set makes the `reg` register the destination, clear makes it the source; the result is
(destination, source) (41_register_form.md R131). -/
def orient (d : Bool) (reg rm : RegisterDescriptor) : RegisterDescriptor × RegisterDescriptor :=
  if d then (reg, rm) else (rm, reg)

end Sys2Proof.Machine
end

