-- ==== Sys2Proof/Machine/Operands.lean ====
section
/-! DEFINITION. The register catalog and the operand decoder (40_classifier_extractor_catalog.md §3,
41_register_form.md §1). -/

namespace Sys2Proof.Machine

/-- `lookup(C, field, width)` (R114). -/
def lookup (C : Catalog) (field : BitVec 3) (width : Width) : RegisterDescriptor where
  name :=
    match width with
    | .byte => C.byteNames[field.toNat]'field.isLt
    | .word => C.wordNames[field.toNat]'field.isLt
  width := width
  index := field

/-- The 16 pairs of a field value and a width. -/
def selectors : List (BitVec 3 × Width) :=
  [(0, .byte), (1, .byte), (2, .byte), (3, .byte), (4, .byte), (5, .byte), (6, .byte), (7, .byte),
   (0, .word), (1, .word), (2, .word), (3, .word), (4, .word), (5, .word), (6, .word), (7, .word)]

/-- `reverse(C, n)`: the pair whose name is `n` (R117). The engine never uses it. -/
def reverse (C : Catalog) (n : String) : Option (BitVec 3 × Width) :=
  selectors.find? fun p => (lookup C p.1 p.2).name == n

/-- The operand decoder: (destination, source), or `none` for `UnsupportedAddressingMode`, when `mod` is not 11
(R130, R131). -/
def decodeRM (C : Catalog) (mod : BitVec 2) (reg rm : BitVec 3) (d w : Bool) :
    Option (RegisterDescriptor × RegisterDescriptor) :=
  if mod = 0b11#2 then some (orient d (lookup C reg (widthOf w)) (lookup C rm (widthOf w))) else none

end Sys2Proof.Machine
end

