-- ==== Sys2Proof/Machine/Ops.lean ====
section
/-! DEFINITION. The named operations of the machine: the input buffer, the read primitive, entering an error condition,
and completing an instruction (20_memory.md, 60_exceptions.md §2, 10_state.md R30). -/

namespace Sys2Proof.Machine

/-! ## The input buffer -/

/-- What an unlisted address reads as: DESIGN CHOICE, zero (log 1). -/
def Memory.unlisted : Byte := 0

/-- The byte at an address. -/
def Memory.read : Memory → Nat → Byte
  | [], _ => Memory.unlisted
  | (a', v) :: m, a => if a = a' then v else Memory.read m a

/-- The listing of one byte: nothing where the byte is what an unlisted address reads as. -/
def Memory.cell (a : Nat) (v : Byte) : Memory := if v = Memory.unlisted then [] else [(a, v)]

/-- Put a byte at an address of a canonical memory. -/
def Memory.insert (a : Nat) (v : Byte) : Memory → Memory
  | [] => Memory.cell a v
  | (a', v') :: m =>
    if a < a' then Memory.cell a v ++ (a', v') :: m
    else if a = a' then Memory.cell a v ++ m
    else (a', v') :: Memory.insert a v m

/-- Place a byte in the buffer. Only the host writes, and only before a run (20_memory.md R56, R62); the buffer has no
byte at or above 256 (R50), so nothing is placed there. -/
def Memory.write (m : Memory) (a : Nat) (v : Byte) : Memory :=
  if a < Config.bufMax then Memory.insert a v m else m

/-- The canonical form from address `lo` on. -/
def Memory.wfFrom : Nat → Memory → Bool
  | _, [] => true
  | lo, (a, v) :: m =>
    decide (lo ≤ a) && decide (a < Config.bufMax) && decide (v ≠ Memory.unlisted) && Memory.wfFrom (a + 1) m

/-- The canonical form: addresses strictly rising and inside the buffer, no entry that an unlisted address reads as. -/
def Memory.wf (m : Memory) : Bool := Memory.wfFrom 0 m

/-- Place bytes one after the other from address `a` on. -/
def Memory.writeAll (m : Memory) (a : Nat) : List Byte → Memory
  | [] => m
  | v :: vs => Memory.writeAll (m.write a v) (a + 1) vs

/-- The listing of consecutive bytes from address `a` on. -/
def Memory.ofBytes (a : Nat) : List Byte → Memory
  | [] => []
  | v :: vs => Memory.cell a v ++ Memory.ofBytes (a + 1) vs

/-- `ReadByte(i)`: defined only below `len` (20_memory.md R52, R53). -/
def State.readByte (s : State) (i : Nat) : Option Byte :=
  if i < s.len then some (s.buf.read i) else none

/-! ## Error conditions -/

/-- The condition a non-fatal reason stands for. -/
def NonFatal.condition : NonFatal → Condition
  | .notImplemented => .notImplemented
  | .unsupportedAddressingMode => .unsupportedAddressingMode

/-- Taking an error condition: `raise e(o)` sets `st` and changes nothing else (60_exceptions.md R225, R227). There is
no return from it (R228). -/
def raise (e : Condition) (o : Nat) (s : State) : State := { s with st := .failed e o }

/-- Complete an instruction: append its record, move the cursor past it, wait for the next opcode
(10_state.md R22, R30). -/
def complete (r : Record) (n : Nat) (s : State) : State :=
  { s with out := s.out ++ [r], cur := s.cur + n, st := .awaitingOpcode }

/-- A non-fatal condition at the instruction at the cursor, `n` bytes long as the block consumes it: fatal under
`Strict`, an error record and the next instruction under `Recoverable` (60_exceptions.md R224). -/
def nonFatal (e : NonFatal) (n : Nat) (s : State) : State :=
  match s.policy with
  | .strict => raise e.condition s.cur s
  | .recoverable => complete (.error e s.cur n) n s

/-- The truncation check of an instruction of `n` bytes at the cursor: `TruncatedStream` at the cursor when one of them
is not below `len`, else the rest of the instruction (41_register_form.md R132, 42_immediate_to_register.md R151). -/
def needBytes (n : Nat) (s : State) (rest : State) : Host.Outcome State Fault Refusal :=
  if s.cur + n ≤ s.len then .next rest else .next (raise .truncatedStream s.cur s)

end Sys2Proof.Machine
end

