-- ==== Sys2Proof/Machine/ImmediateToRegister.lean ====
section
/-! DEFINITION. The immediate-to-register kind (42_immediate_to_register.md §2). -/

namespace Sys2Proof.Machine

/-- The bytes of an immediate-to-register instruction: the opcode byte and 1 or 2 immediate bytes (R150, R155). -/
def immediateLength (w : Bool) : Nat := if w then 3 else 2

/-- ImmediateToRegister, `mov` (R155). -/
def execImmediateToRegister (w : Bool) (reg : BitVec 3) (imm : Word) (s : State) : Host.Outcome State Fault Refusal :=
  needBytes (immediateLength w) s <|
    complete
      (.decoded s.cur (immediateLength w) .immediateToRegister .mov (.reg (lookup s.C reg (widthOf w)))
        (.imm (signed16 imm)))
      (immediateLength w) s

end Sys2Proof.Machine
end

