-- ==== Sys2Proof/Machine/RegisterForm.lean ====
section
/-! DEFINITION. The register-form kinds: RegisterMemoryMove and ArithmeticAdd (41_register_form.md §2). -/

namespace Sys2Proof.Machine

/-- The transition of format RM: truncation before the mode check (60_exceptions.md R226), then the record or
`UnsupportedAddressingMode` over 2 bytes (R132). -/
def registerForm (kind : Kind) (mnemonic : Mnemonic) (d w : Bool) (mod : BitVec 2) (reg rm : BitVec 3) (s : State) :
    Host.Outcome State Fault Refusal :=
  needBytes 2 s <|
    match decodeRM s.C mod reg rm d w with
    | none => nonFatal .unsupportedAddressingMode 2 s
    | some (dst, src) => complete (.decoded s.cur 2 kind mnemonic (.reg dst) (.reg src)) 2 s

/-- RegisterMemoryMove, `mov` (R132). -/
def execRegisterMemoryMove (d w : Bool) (mod : BitVec 2) (reg rm : BitVec 3) (s : State) :
    Host.Outcome State Fault Refusal :=
  registerForm .registerMemoryMove .mov d w mod reg rm s

/-- ArithmeticAdd in register form, `add`: decoded, not performed (R133). -/
def execArithmeticAdd (d w : Bool) (mod : BitVec 2) (reg rm : BitVec 3) (s : State) :
    Host.Outcome State Fault Refusal :=
  registerForm .arithmeticAdd .add d w mod reg rm s

end Sys2Proof.Machine
end

