-- ==== Sys2Proof/Machine/Unimplemented.lean ====
section
/-! DEFINITION. The recognised kinds without a decode rule: their effect is the non-fatal condition `NotImplemented`
over the opcode byte (43_unimplemented_kinds.md). No field of the instruction is read (30_encoding.md R75). -/

namespace Sys2Proof.Machine

/-- The common rule of format U (R170). -/
def withoutDecodeRule (s : State) : Host.Outcome State Fault Refusal := .next (nonFatal .notImplemented 1 s)

/-- ImmediateToRegisterOrMemory (R171). -/
def execImmediateToRegisterOrMemory (_w : Bool) (s : State) : Host.Outcome State Fault Refusal := withoutDecodeRule s

/-- MemoryToAccumulator (R172). -/
def execMemoryToAccumulator (_w : Bool) (s : State) : Host.Outcome State Fault Refusal := withoutDecodeRule s

/-- AccumulatorToMemory (R173). -/
def execAccumulatorToMemory (_w : Bool) (s : State) : Host.Outcome State Fault Refusal := withoutDecodeRule s

end Sys2Proof.Machine
end

