-- ==== Sys2Proof/Machine/Dispatch.lean ====
section
/-! DEFINITION. The dispatch: one arm per kind, no default arm (44_engine.md R194, R195). -/

namespace Sys2Proof.Machine

def exec (i : Instr) (s : State) : Host.Outcome State Fault Refusal :=
  match i with
  | .registerMemoryMove d w mod reg rm => Sys2Proof.Machine.execRegisterMemoryMove d w mod reg rm s
  | .immediateToRegister w reg imm => Sys2Proof.Machine.execImmediateToRegister w reg imm s
  | .immediateToRegisterOrMemory w => Sys2Proof.Machine.execImmediateToRegisterOrMemory w s
  | .memoryToAccumulator w => Sys2Proof.Machine.execMemoryToAccumulator w s
  | .accumulatorToMemory w => Sys2Proof.Machine.execAccumulatorToMemory w s
  | .arithmeticAdd d w mod reg rm => Sys2Proof.Machine.execArithmeticAdd d w mod reg rm s

end Sys2Proof.Machine
end

