-- ==== Sys2Proof/Machine/Engine.lean ====
section
/-! DEFINITION. The engine around the meanings: the classification transition, and fetching the bytes of the
instruction at the cursor (44_engine.md §1). -/

namespace Sys2Proof.Machine

/-- The iteration guard fires: `maxIterations = m` and `m` classifications have been made (R191). -/
def guardFires (s : State) : Bool :=
  match s.maxIterations with
  | none => false
  | some m => decide (m ≤ s.iter)

/-- Classify an opcode byte that has been read and counted: a kind, or `UnknownOpcode` at the cursor (R192). -/
def classifyOpcode (b0 : Byte) (s : State) : State :=
  match classify s.T b0 with
  | none => raise .unknownOpcode s.cur s
  | some k => { s with st := .decodingOperands k }

/-- The transition from `AwaitingOpcode`: end of stream first, then the iteration guard, then the classification, which
counts itself and reads the opcode byte (R190, R191, R192; 60_exceptions.md R226). -/
def awaitingStep (s : State) : Host.Outcome State Fault Refusal :=
  if s.cur = s.len then .next { s with st := .done }
  else if guardFires s then .next (raise .iterationLimitExceeded s.cur s)
  else
    match s.readByte s.cur with
    | none => .fault .readPastStream
    | some b0 => .next (classifyOpcode b0 { s with iter := s.iter + 1 })

/-- The bytes of the stream from offset `o` on, as many as the longest instruction has and no byte at or above `len`
(20_memory.md R53, R58). -/
def State.bytesAt (s : State) (o : Nat) : List Byte := (List.range' o longestInstr).filterMap s.readByte

/-- The instruction of kind `k` at the cursor. The opcode byte is read again (10_state.md R38). -/
def fetchInstr (k : Kind) (s : State) : Except DecodeError Instr :=
  match decodeOperands k (s.bytesAt s.cur) with
  | .ok (i, _) => .ok i
  | .error e => .error e

/-- What follows where no instruction can be fetched: `TruncatedStream` at the cursor when the stream ends inside it
(60_exceptions.md R220); without an opcode byte there is no read to make (20_memory.md R52). -/
def fetchFailed (e : DecodeError) (s : State) : Host.Outcome State Fault Refusal :=
  match e with
  | .truncated => .next (raise .truncatedStream s.cur s)
  | .emptyStream => .fault .readPastStream
  | .unrecognized => .next (raise .unknownOpcode s.cur s)

/-- The machine with bytes placed at the cursor, inside the valid length. -/
def State.withBytesAtCursor (s : State) (bs : List Byte) : State :=
  { s with
    buf := s.buf.writeAll s.cur bs
    len := ⟨min 256 (max s.len (s.cur + bs.length)), by omega⟩ }

/-- The machine after the classification of the opcode byte at the cursor, where it gives a kind; the guard is not
consulted and a byte without a kind is left for the step to classify. -/
def State.classified (s : State) : State :=
  match s.readByte s.cur with
  | none => s
  | some b0 =>
    match classify s.T b0 with
    | none => { s with st := .awaitingOpcode }
    | some k => { s with st := .decodingOperands k, iter := s.iter + 1 }

end Sys2Proof.Machine
end

