-- ==== Sys2Proof/Machine/Step.lean ====
section
/-! DEFINITION. The step function (44_engine.md R190), and placing an instruction where the next step runs it. -/

namespace Sys2Proof.Machine

/-- One transition of the engine: total on the states of a run that are not terminal, no step on terminal ones
(R190, R194, R196). -/
def step (s : State) : Host.Outcome State Fault Refusal :=
  match s.st with
  | .awaitingOpcode => awaitingStep s
  | .decodingOperands k =>
    match fetchInstr k s with
    | .ok i => exec i s
    | .error e => fetchFailed e s
  | .done => .fault .noStep
  | .failed _ _ => .fault .noStep

/-- `s` with an instruction, given as a table word, at the cursor, its bytes inside the stream and its opcode byte
classified, so that the very next step is the transition that runs it (log 10). It stands for what the host does at a
start (placing the stream and its length) and for the classification step. -/
def State.withFetchWord (s : State) (nbits w : Nat) : State :=
  (s.withBytesAtCursor (tableWordBytes nbits w)).classified

end Sys2Proof.Machine
end

