-- ==== Sys2Proof/Machine/Render.lean ====
section
/-! DEFINITION. The text form of a decoded record, an observation outside the block (30_encoding.md R86,
44_engine.md R212). There is no text for an error record (decision D23). -/

namespace Sys2Proof.Machine

/-- Signed decimal: a leading `-` when negative, no `+`, no leading zeros (R86). -/
def decimal (v : Int) : String :=
  if v < 0 then "-" ++ String.ofList (Nat.toDigits 10 v.natAbs) else String.ofList (Nat.toDigits 10 v.natAbs)

/-- The mnemonic's text (30_encoding.md R83). -/
def Mnemonic.text : Mnemonic → String
  | .mov => "mov"
  | .add => "add"

/-- The text of an operand (R212). -/
def Operand.text : Operand → String
  | .reg d => d.name
  | .imm v => decimal v

/-- `render` of a decoded record; an error record has no text (R212). -/
def Record.render : Record → Option String
  | .decoded _ _ _ mnemonic dst src => some (mnemonic.text ++ " " ++ dst.text ++ ", " ++ src.text)
  | .error _ _ _ => none

end Sys2Proof.Machine
end

