-- ==== Sys2Proof/Machine/HostInterface.lean ====
section
/-! DEFINITION. The host's controls: start, with its named checks, and observation (10_state.md §6,
70_reset_and_hazards.md §1). -/

namespace Sys2Proof.Machine

/-- An opcode table entry as the host supplies it: any 3-bit kind code (10_state.md R26). -/
structure SuppliedEntry where
  pattern : Byte
  mask : Byte
  kind : BitVec 3
  deriving DecidableEq, Repr

/-- The entry with its kind code read, where the code is a kind's. -/
def SuppliedEntry.entry (e : SuppliedEntry) : Option OpcodeEntry :=
  (Kind.ofCode e.kind).map fun k => ⟨e.pattern, e.mask, k⟩

/-- An entry of the table register as a host would supply it. -/
def suppliedEntry (e : OpcodeEntry) : SuppliedEntry := ⟨e.pattern, e.mask, e.kind.code⟩

/-- Check `kindCode` (40_classifier_extractor_catalog.md R102). -/
def kindCodeHolds (t : List SuppliedEntry) : Bool := t.all fun e => (Kind.ofCode e.kind).isSome

/-- Check `patternInMask` (R102). -/
def patternInMaskHolds (t : List SuppliedEntry) : Bool := t.all fun e => e.pattern &&& ~~~e.mask == 0

/-- Two entries can match a common byte (R102). -/
def SuppliedEntry.overlaps (e f : SuppliedEntry) : Bool := (e.pattern ^^^ f.pattern) &&& e.mask &&& f.mask == 0

/-- The first entry's mask is the more specific one (R102). -/
def SuppliedEntry.moreSpecific (e f : SuppliedEntry) : Bool := e.mask &&& f.mask == f.mask && e.mask != f.mask

/-- Check `specificFirst`: of two entries with different kinds that can match a common byte, the earlier has the more
specific mask (R102; 90_conflicts.md C4). -/
def specificFirstHolds : List SuppliedEntry → Bool
  | [] => true
  | e :: es => (es.all fun f => e.kind == f.kind || !e.overlaps f || e.moreSpecific f) && specificFirstHolds es

/-- Check `distinctNames` (R115). -/
def distinctNamesHolds (C : Catalog) : Bool := decide (C.byteNames.toList ++ C.wordNames.toList).Nodup

/-- The check, listed where it fails. -/
def failedCheck (c : StartCheck) (holds : Bool) : List StartCheck := if holds then [] else [c]

/-- The table checks that fail, in the order of R102. -/
def failedTableChecks (t : List SuppliedEntry) : List StartCheck :=
  failedCheck .kindCode (kindCodeHolds t) ++ failedCheck .patternInMask (patternInMaskHolds t) ++
    failedCheck .specificFirst (specificFirstHolds t)

/-- What the host supplies to a start (10_state.md R40). A table or catalog of `none` stands for the default. -/
structure StartInput where
  buf : Vector Byte 256
  len : Fin 257
  table : Option (List SuppliedEntry)
  catalog : Option Catalog
  policy : Policy
  maxIterations : Option Nat
  deriving DecidableEq, Repr

/-- The checks a start fails; the defaults pass all of them (R103, R104, R116). -/
def StartInput.failedChecks (h : StartInput) : List StartCheck :=
  (match h.table with
    | none => []
    | some t => failedTableChecks t) ++
  match h.catalog with
    | none => []
    | some C => failedCheck .distinctNames (distinctNamesHolds C)

/-- The table register a start loads. -/
def StartInput.loadedTable (h : StartInput) : OpcodeTable :=
  match h.table with
  | none => defaultTable
  | some t => t.filterMap SuppliedEntry.entry

/-- The state at the start of a run (10_state.md R39; 70_reset_and_hazards.md R250). -/
def StartInput.initial (h : StartInput) : State where
  buf := Memory.ofBytes 0 h.buf.toList
  len := h.len
  st := .awaitingOpcode
  cur := 0
  iter := 0
  out := []
  T := h.loadedTable
  C := h.catalog.getD defaultCatalog
  policy := h.policy
  maxIterations := h.maxIterations

/-- Start: a new run whatever ran before, or a refusal that names the failed checks (R250, R251). -/
def start (h : StartInput) : Host.Outcome State Fault Refusal :=
  if h.failedChecks = [] then .next h.initial else .refused (.startRefused h.failedChecks)

/-- Observe: what the host may read at any time (10_state.md R42). -/
def observe (s : State) : EngineState × Nat × List Record := (s.st, s.cur, s.out)

end Sys2Proof.Machine
end

