-- ==== Sys2Proof/Safety.lean ====
section
/-! DEFINITION. What a right state of a run is: the terms in which the statements speak (44_engine.md §2). -/

namespace Sys2Proof.Machine

/-! ## Records against the stream -/

/-- The offset of a record (10_state.md R31, R32). -/
def Record.offset : Record → Nat
  | .decoded o _ _ _ _ _ => o
  | .error _ o _ => o

/-- The bytes a record accounts for (10_state.md R31, R32). -/
def Record.length : Record → Nat
  | .decoded _ n _ _ _ _ => n
  | .error _ _ n => n

/-- The record is a `Decoded` record. -/
def Record.isDecoded : Record → Bool
  | .decoded _ _ _ _ _ _ => true
  | .error _ _ _ => false

/-- The condition an instruction raises when all its bytes are there, `none` for one that decodes
(60_exceptions.md R220). -/
def conditionOf : Instr → Option NonFatal
  | .registerMemoryMove _ _ mod _ _ => if mod = 0b11#2 then none else some .unsupportedAddressingMode
  | .immediateToRegister _ _ _ => none
  | .immediateToRegisterOrMemory _ => some .notImplemented
  | .memoryToAccumulator _ => some .notImplemented
  | .accumulatorToMemory _ => some .notImplemented
  | .arithmeticAdd _ _ mod _ _ => if mod = 0b11#2 then none else some .unsupportedAddressingMode

/-- The destination and source of format RM: the direction flag says which field names which
(41_register_form.md R131; 30_encoding.md R78). -/
def registerOperands (C : Catalog) (d w : Bool) (reg rm : BitVec 3) : Operand × Operand :=
  if d then (.reg (lookup C reg (widthOf w)), .reg (lookup C rm (widthOf w)))
  else (.reg (lookup C rm (widthOf w)), .reg (lookup C reg (widthOf w)))

/-- The record of an instruction at offset `o`: the record the kind's rule emits, or the error record of its condition
(30_encoding.md R78; 60_exceptions.md R224). -/
def recordOf (C : Catalog) (o : Nat) (i : Instr) : Record :=
  match conditionOf i with
  | some e => .error e o i.length
  | none =>
    match i with
    | .registerMemoryMove d w _ reg rm =>
      .decoded o 2 .registerMemoryMove .mov (registerOperands C d w reg rm).1 (registerOperands C d w reg rm).2
    | .arithmeticAdd d w _ reg rm =>
      .decoded o 2 .arithmeticAdd .add (registerOperands C d w reg rm).1 (registerOperands C d w reg rm).2
    | .immediateToRegister w reg imm =>
      .decoded o (if w then 3 else 2) .immediateToRegister .mov (.reg (lookup C reg (widthOf w))) (.imm (signed16 imm))
    | .immediateToRegisterOrMemory _ => .error .notImplemented o 1
    | .memoryToAccumulator _ => .error .notImplemented o 1
    | .accumulatorToMemory _ => .error .notImplemented o 1

/-- The records that instructions laid one after the other from offset `o` on give. -/
def recordsFrom (C : Catalog) : Nat → List Instr → List Record
  | _, [] => []
  | o, i :: is => recordOf C o i :: recordsFrom C (o + i.length) is

/-- The records cover the bytes from offset `o` up to `e` exactly once, in order (44_engine.md R204). -/
def CoversFrom : Nat → List Record → Nat → Prop
  | o, [], e => o = e
  | o, r :: rs, e => r.offset = o ∧ CoversFrom (o + r.length) rs e

/-- The bytes of the stream, offsets `0 .. len-1` (20_memory.md R50). -/
def State.streamBytes (s : State) : List Byte := (List.range s.len).map s.buf.read

/-- The bytes are exactly these instructions, one after the other, under the table. -/
def ParsesAs (T : OpcodeTable) : List Instr → List Byte → Prop
  | [], bs => bs = []
  | i :: is, bs => ∃ rest, decode T bs = .ok (i, rest) ∧ ParsesAs T is rest

/-! ## States -/

/-- `Done` and `Failed` are terminal (44_engine.md R196). -/
def EngineState.terminal : EngineState → Bool
  | .awaitingOpcode => false
  | .decodingOperands _ => false
  | .done => true
  | .failed _ _ => true

/-- The conditions that end a run under every policy (60_exceptions.md R222, R223). -/
def Condition.alwaysFatal : Condition → Bool
  | .unknownOpcode => true
  | .notImplemented => false
  | .unsupportedAddressingMode => false
  | .truncatedStream => true
  | .iterationLimitExceeded => true

/-- How many classifications have not led to a record: the one under way, or the one that ended the run
(44_engine.md R205). -/
def EngineState.pending : EngineState → Nat
  | .awaitingOpcode => 0
  | .decodingOperands _ => 1
  | .done => 0
  | .failed .iterationLimitExceeded _ => 0
  | .failed _ _ => 1

/-- What holds in every state of a run. -/
structure RunInv (s : State) : Prop where
  /-- The buffer keeps its canonical form. -/
  buffer : s.buf.wf = true
  /-- `cur <= len` (10_state.md R22; 44_engine.md R202). -/
  cursor : s.cur ≤ s.len
  /-- The table passes the checks of a start (R102). -/
  table : failedTableChecks (s.T.map suppliedEntry) = []
  /-- The catalog passes the check of a start (R115). -/
  catalog : distinctNamesHolds s.C = true
  /-- In `DecodingOperands(k)` the opcode byte at the cursor is in the stream and is of kind `k` (10_state.md R21, R38). -/
  classified : ∀ k, s.st = .decodingOperands k →
    ∃ b0, s.readByte s.cur = some b0 ∧ classify s.T b0 = some k
  /-- `Done` is at the end of the stream (10_state.md R21). -/
  finished : s.st = .done → s.cur = s.len
  /-- A failed run stands at the byte offset it reports, inside the stream (60_exceptions.md R221). -/
  failedAt : ∀ e o, s.st = .failed e o → o = s.cur ∧ s.cur < s.len
  /-- The records cover the bytes before the cursor exactly once (44_engine.md R204). -/
  covers : CoversFrom 0 s.out s.cur
  /-- Every record is what the bytes at its offset decode to under the run's table and catalog. -/
  sound : ∀ r ∈ s.out, ∃ i rest,
    decode s.T (s.bytesAt r.offset) = .ok (i, rest) ∧ r = recordOf s.C r.offset i
  /-- One classification for each record and for the pending one (44_engine.md R205). -/
  iterations : s.iter = s.out.length + s.st.pending
  /-- The guard keeps the classifications within the limit (10_state.md R29). -/
  limit : ∀ m, s.maxIterations = some m → s.iter ≤ m
  /-- Under `Strict` every record is a `Decoded` record (44_engine.md R206). -/
  strict : s.policy = .strict → ∀ r ∈ s.out, r.isDecoded = true
  /-- Under `Recoverable` a run fails only for a condition that is always fatal (44_engine.md R206). -/
  recoverable : s.policy = .recoverable → ∀ e o, s.st = .failed e o → e.alwaysFatal = true

/-- `k` steps of the machine (the host's `run`). -/
def runSteps (k : Nat) (s : State) : Host.Outcome State Fault Refusal := Host.Core.run Sys2Proof.core k s

/-- `t` is a state of the run that begins in `s`. -/
def Reaches (s t : State) : Prop := ∃ k, runSteps k s = .next t

/-- Two states that differ at most in the bytes of the buffer at or above the valid length. -/
structure SameStream (s t : State) : Prop where
  bytes : ∀ a : Nat, a < s.len → s.buf.read a = t.buf.read a
  len : s.len = t.len
  st : s.st = t.st
  cur : s.cur = t.cur
  iter : s.iter = t.iter
  out : s.out = t.out
  T : s.T = t.T
  C : s.C = t.C
  policy : s.policy = t.policy
  maxIterations : s.maxIterations = t.maxIterations

/-- Two states whose registers the engine never writes are the same: the buffer, the length and the configuration
registers (10_state.md R20, R25). -/
structure SameInputs (s t : State) : Prop where
  buf : s.buf = t.buf
  len : s.len = t.len
  T : s.T = t.T
  C : s.C = t.C
  policy : s.policy = t.policy
  maxIterations : s.maxIterations = t.maxIterations

end Sys2Proof.Machine
end

