-- ==== Sys2Proof/Certificates/Slice0/Obligations.lean ====
section
/-! DEFINITION. The statements about the model, each after the rule or the section of spec/ it comes from. A statement
whose basis is the spec's own decision (92_eei_decisions.md) or derivation says so. -/

open Sys2Proof Sys2Proof.Machine

/-! ## Classifier, field extractor, catalog (40_classifier_extractor_catalog.md) -/

/-- R100: the kind of the first entry in table order whose mask-and-compare succeeds; Unrecognized exactly when none
does; the rule's example under the default table. -/
def Obligations.ClassifyReturnsFirstMatch : Prop :=
  (∀ (T : OpcodeTable) (b : Byte),
    (∀ k, classify T b = some k ↔
      ∃ before e after, T = before ++ e :: after ∧ b &&& e.mask = e.pattern ∧ e.kind = k ∧
        ∀ f ∈ before, b &&& f.mask ≠ f.pattern) ∧
    (classify T b = none ↔ ∀ e ∈ T, b &&& e.mask ≠ e.pattern)) ∧
  classify defaultTable 0x89 = some .registerMemoryMove

/-- Decision D13 (`specificFirst`, conflict C4): in an accepted table an entry that also matches the byte but has another
kind than the answer is less specific than an entry that gives the answer. -/
def Obligations.AcceptedTableAnswersMoreSpecificKind : Prop :=
  ∀ (T : OpcodeTable), failedTableChecks (T.map suppliedEntry) = [] →
    ∀ (b : Byte) (k : Kind), classify T b = some k →
      ∀ f ∈ T, b &&& f.mask = f.pattern → f.kind ≠ k →
        ∃ e ∈ T, b &&& e.mask = e.pattern ∧ e.kind = k ∧ e.mask &&& f.mask = f.mask ∧ e.mask ≠ f.mask

/-- The spec's derived list of the bytes the default table (decision D9) recognises, kind by kind. -/
def Obligations.DefaultTableRecognisesThirtyBytes : Prop :=
  ∀ b : Byte, classify defaultTable b =
    if b ≤ 0x03 then some .arithmeticAdd
    else if 0x88 ≤ b ∧ b ≤ 0x8B then some .registerMemoryMove
    else if 0xA0 ≤ b ∧ b ≤ 0xA1 then some .memoryToAccumulator
    else if 0xA2 ≤ b ∧ b ≤ 0xA3 then some .accumulatorToMemory
    else if 0xB0 ≤ b ∧ b ≤ 0xBF then some .immediateToRegister
    else if 0xC6 ≤ b ∧ b ≤ 0xC7 then some .immediateToRegisterOrMemory
    else none

/-- R72: `mod` is bits 7:6, `reg` bits 5:3, `rm` bits 2:0 of the addressing-mode byte. -/
def Obligations.AddressingModeFieldsAtTheirBits : Prop :=
  ∀ b : Byte, modField b = b.extractLsb' 6 2 ∧ regField b = b.extractLsb' 3 3 ∧ rmField b = b.extractLsb' 0 3

/-- Decision D10, the spec's own choice: in a format RM opcode byte `d` is bit 1 and `w` bit 0; in a format IR opcode byte
`w` is bit 3 and `reg` bits 2:0. -/
def Obligations.OpcodeByteFieldsAtTheirBits : Prop :=
  ∀ b : Byte, directionFlag b = b.getLsbD 1 ∧ widthFlag b = b.getLsbD 0 ∧ immWidthFlag b = b.getLsbD 3 ∧
    immRegField b = b.extractLsb' 0 3

/-- R111: the flag is whether the masked byte is not 0; for a one-bit mask it is that bit; the rule's examples. -/
def Obligations.FlagReadsMaskedBits : Prop :=
  (∀ b mask : Byte, flag b mask = true ↔ b &&& mask ≠ 0) ∧
  (∀ (b : Byte) (i : Fin 8), flag b (1 <<< i.val) = b.getLsbD i.val) ∧
  flag 0x89 0x01 = true ∧ flag 0x89 0x02 = false

/-- Decision D14, the mask in place before the shift: the extracted value is the masked byte shifted, at most the mask
shifted, and 0 for mask 0. -/
def Obligations.ExtractIsBoundedByItsMask : Prop :=
  ∀ (b mask : Byte) (shift : Nat), shift < 8 →
    extract b mask shift = (b &&& mask) >>> shift ∧ extract b mask shift ≤ mask >>> shift ∧ extract b 0 shift = 0

/-- 40_classifier_extractor_catalog.md section 3: a catalog is accepted at start only if its 16 names are pairwise distinct;
and the refusal names the check (70_reset_and_hazards.md section 1). That `distinctNames` is named even when checks of the
table fail too is the model's choice (log 6). -/
def Obligations.AcceptedCatalogHasDistinctNames : Prop :=
  (∀ h t, start h = .next t →
    ∀ f w f' w', (lookup t.C f w).name = (lookup t.C f' w').name → f = f' ∧ w = w') ∧
  (∀ h C, h.catalog = some C →
    (∃ f w f' w', (lookup C f w).name = (lookup C f' w').name ∧ ¬(f = f' ∧ w = w')) →
    ∃ failed, start h = .refused (.startRefused failed) ∧ .distinctNames ∈ failed)

/-- R114: the descriptor of a field and a width, for all 16 of them, and the rule's examples in the default catalog. -/
def Obligations.LookupReadsTheCatalog : Prop :=
  (∀ (C : Catalog) (f : BitVec 3),
    lookup C f .byte = ⟨C.byteNames[f.toNat]'f.isLt, .byte, f⟩ ∧
    lookup C f .word = ⟨C.wordNames[f.toNat]'f.isLt, .word, f⟩) ∧
  lookup defaultCatalog 0 .byte = ⟨"al", .byte, 0⟩ ∧ lookup defaultCatalog 0 .word = ⟨"ax", .word, 0⟩

/-- R117: with distinct names, each name of the catalog has exactly one field and width, and `reverse` returns it. -/
def Obligations.ReverseInvertsLookup : Prop :=
  ∀ C, distinctNamesHolds C = true →
    ∀ n f w, reverse C n = some (f, w) ↔ (lookup C f w).name = n

/-- The last sentence of 10_state.md R34, for descriptors from one catalog. -/
def Obligations.DescriptorsEqualIffIndexAndWidth : Prop :=
  ∀ (C : Catalog) f w f' w', lookup C f w = lookup C f' w' ↔
    (lookup C f w).index = (lookup C f' w').index ∧ (lookup C f w).width = (lookup C f' w').width

/-! ## Encoding -/

/-- Under the default table (decisions D9, D10) decoding the encoding of a well-formed instruction gives it back, and
leaves the bytes that follow. -/
def Obligations.DecodeInvertsEncode : Prop :=
  ∀ (i : Instr) (rest : List Byte), i.wf = true → decode defaultTable (encode i ++ rest) = .ok (i, rest)

/-- Under the default table (decisions D9, D10) an instruction the decoder gives is well-formed and its encoding is the
bytes it was read from. -/
def Obligations.EncodeInvertsDecode : Prop :=
  ∀ (bs rest : List Byte) (i : Instr), decode defaultTable bs = .ok (i, rest) → i.wf = true ∧ encode i ++ rest = bs

/-- The derived length rule of 30_encoding.md section 3, under every table: the opcode byte alone decides the length; with
that many bytes the decoder gives an instruction of the kind and exactly the bytes after it, with fewer it reports
truncation, and for a byte without a kind it reports that. -/
def Obligations.DecodeConsumesLengthOfOpcodeByte : Prop :=
  ∀ (T : OpcodeTable) (b0 : Byte) (bs : List Byte),
    (classify T b0 = none → decode T (b0 :: bs) = .error .unrecognized) ∧
    ∀ k n, classify T b0 = some k →
      n = (if k = .registerMemoryMove ∨ k = .arithmeticAdd then 2
           else if k = .immediateToRegister then (if b0.getLsbD 3 then 3 else 2) else 1) →
      (n ≤ (b0 :: bs).length →
        ∃ i, decode T (b0 :: bs) = .ok (i, (b0 :: bs).drop n) ∧ i.kind = k ∧ i.length = n) ∧
      ((b0 :: bs).length < n → decode T (b0 :: bs) = .error .truncated)

/-- Words written out from the spec's encodings (30_encoding.md; 95_test_vectors.md V1, V2, V56, V61, V79, V90 to V94). -/
def Obligations.SampleWordsDecode : Prop :=
  decode defaultTable [0b10001001, 0b11000011] = .ok (.registerMemoryMove false true 0b11#2 0b000 0b011, []) ∧
  decode defaultTable [0b10001010, 0b11100101] = .ok (.registerMemoryMove true false 0b11#2 0b100 0b101, []) ∧
  decode defaultTable [0b00000001, 0b11011000] = .ok (.arithmeticAdd false true 0b11#2 0b011 0b000, []) ∧
  decode defaultTable [0b10110000, 0b00000101] = .ok (.immediateToRegister false 0b000 0x0005, []) ∧
  decode defaultTable [0b10111000, 0xFF, 0x7F] = .ok (.immediateToRegister true 0b000 0x7FFF, []) ∧
  decode defaultTable [0b11000110, 0x06] = .ok (.immediateToRegisterOrMemory false, [0x06]) ∧
  decode defaultTable [0b10100000, 0xB0] = .ok (.memoryToAccumulator false, [0xB0]) ∧
  decode defaultTable [0b10100011] = .ok (.accumulatorToMemory true, []) ∧
  decode defaultTable [0b11111111] = .error .unrecognized ∧
  decode defaultTable [0b10001001] = .error .truncated

/-- R152: the immediate's value, exactly, for both widths; low byte first. -/
def Obligations.ImmediateAssembly : Prop :=
  ∀ (lo hi : Byte) (rest : List Byte),
    (∃ v, readImm false (lo :: rest) = some (v, rest) ∧
      signed16 v = (if lo < 0x80 then (lo.toNat : Int) else (lo.toNat : Int) - 0x100) ∧
      -128 ≤ signed16 v ∧ signed16 v ≤ 127) ∧
    (∃ v, readImm true (lo :: hi :: rest) = some (v, rest) ∧
      v = (hi.zeroExtend 16 <<< 8) ||| lo.zeroExtend 16 ∧
      signed16 v = (if hi.toNat * 256 + lo.toNat < 0x8000 then ((hi.toNat * 256 + lo.toNat : Nat) : Int)
        else ((hi.toNat * 256 + lo.toNat : Nat) : Int) - 0x10000) ∧
      -32768 ≤ signed16 v ∧ signed16 v ≤ 32767)

/-- R151: with an immediate byte missing nothing is read and the condition is `TruncatedStream`, which ends the run under
either policy. -/
def Obligations.TruncatedImmediateEndsTheRun : Prop :=
  (∀ w bs, readImm w bs = none ↔ bs.length < if w then 2 else 1) ∧
  ∀ (s : State) (b0 : Byte), s.st = .decodingOperands .immediateToRegister → s.readByte s.cur = some b0 →
    (s.len : Nat) < s.cur + 1 + (if immWidthFlag b0 then 2 else 1) →
    ∃ o, step s = .next { s with st := .failed .truncatedStream o }

/-! ## The meanings -/

/-- 41_register_form.md section 2 (the record's fields are decision D21's): RegisterMemoryMove in register form, all its
bytes in the stream, appends its `mov` record, moves the cursor by 2 and waits for the next opcode; nothing else changes. -/
def Obligations.RegisterMemoryMoveDecodes : Prop :=
  ∀ (s : State) (d w : Bool) (reg rm : BitVec 3), s.cur + 2 ≤ s.len →
    exec (.registerMemoryMove d w 0b11#2 reg rm) s = .next
      { s with
        out := s.out ++ [.decoded s.cur 2 .registerMemoryMove .mov
          (.reg (lookup s.C (if d then reg else rm) (if w then .word else .byte)))
          (.reg (lookup s.C (if d then rm else reg) (if w then .word else .byte)))]
        cur := s.cur + 2
        st := .awaitingOpcode }

/-- 41_register_form.md section 2 (decisions D12, D21, D22): ArithmeticAdd in register form appends its `add` record, moves
the cursor by 2 and waits for the next opcode; nothing else changes. -/
def Obligations.ArithmeticAddDecodes : Prop :=
  ∀ (s : State) (d w : Bool) (reg rm : BitVec 3), s.cur + 2 ≤ s.len →
    exec (.arithmeticAdd d w 0b11#2 reg rm) s = .next
      { s with
        out := s.out ++ [.decoded s.cur 2 .arithmeticAdd .add
          (.reg (lookup s.C (if d then reg else rm) (if w then .word else .byte)))
          (.reg (lookup s.C (if d then rm else reg) (if w then .word else .byte)))]
        cur := s.cur + 2
        st := .awaitingOpcode }

/-- R131: the direction flag decides only which of the two resolved registers is the destination; for both register-form
kinds. With it set and with it clear `exec` answers one and the same state but for the last record's two operands, which
change places; the registers are those of `reg` and `rm` in the catalog, of the one width that `w` selects. -/
def Obligations.DirectionFlagPicksDestination : Prop :=
  ∀ (s : State) (mk : Bool → Bool → BitVec 2 → BitVec 3 → BitVec 3 → Instr) (w : Bool) (reg rm : BitVec 3),
    mk = .registerMemoryMove ∨ mk = .arithmeticAdd → s.cur + 2 ≤ s.len →
    ∃ (t : State) (o n : Nat) (k : Kind) (mnemonic : Mnemonic) (R M : RegisterDescriptor),
      R = lookup s.C reg (if w then .word else .byte) ∧ M = lookup s.C rm (if w then .word else .byte) ∧
      R.width = M.width ∧ R.width = (if w then .word else .byte) ∧
      exec (mk true w 0b11#2 reg rm) s = .next
        { t with out := s.out ++ [.decoded o n k mnemonic (.reg R) (.reg M)] } ∧
      exec (mk false w 0b11#2 reg rm) s = .next
        { t with out := s.out ++ [.decoded o n k mnemonic (.reg M) (.reg R)] }

/-- 41_register_form.md sections 1 and 2 with decision D4's 2-byte skip: a mode other than 11, all its bytes in the stream,
is `UnsupportedAddressingMode`: the end of the run under `Strict`, an error record and the next instruction under
`Recoverable`; both register-form kinds. -/
def Obligations.MemoryModesAreUnsupported : Prop :=
  ∀ (s : State) (i : Instr) (d w : Bool) (mod : BitVec 2) (reg rm : BitVec 3), s.cur + 2 ≤ s.len → mod ≠ 0b11#2 →
    i = .registerMemoryMove d w mod reg rm ∨ i = .arithmeticAdd d w mod reg rm →
    (s.policy = .strict → exec i s = .next { s with st := .failed .unsupportedAddressingMode s.cur }) ∧
    (s.policy = .recoverable → exec i s = .next
      { s with out := s.out ++ [.error .unsupportedAddressingMode s.cur 2], cur := s.cur + 2, st := .awaitingOpcode })

/-- 42_immediate_to_register.md section 2 (the record's fields are decision D21's): ImmediateToRegister, all its bytes in
the stream, appends its `mov` record, moves the cursor by its length and waits for the next opcode. -/
def Obligations.ImmediateToRegisterDecodes : Prop :=
  ∀ (s : State) (w : Bool) (reg : BitVec 3) (imm : Word), s.cur + (if w then 3 else 2) ≤ s.len →
    exec (.immediateToRegister w reg imm) s = .next
      { s with
        out := s.out ++ [.decoded s.cur (if w then 3 else 2) .immediateToRegister .mov
          (.reg (lookup s.C reg (if w then .word else .byte)))
          (.imm (if imm.toNat < 0x8000 then (imm.toNat : Int) else (imm.toNat : Int) - 0x10000))]
        cur := s.cur + (if w then 3 else 2)
        st := .awaitingOpcode }

/-- The truncation checks of 41_register_form.md section 2 and 42_immediate_to_register.md section 2 (the offset is decision
D5's): an instruction with a byte not below `len` changes only `st`, to `TruncatedStream` at its offset, under either policy. -/
def Obligations.MissingBytesRaiseTruncatedStream : Prop :=
  ∀ (s : State) (d w : Bool) (mod : BitVec 2) (reg rm : BitVec 3) (imm : Word),
    ((s.len : Nat) < s.cur + 2 →
      exec (.registerMemoryMove d w mod reg rm) s = .next { s with st := .failed .truncatedStream s.cur } ∧
      exec (.arithmeticAdd d w mod reg rm) s = .next { s with st := .failed .truncatedStream s.cur }) ∧
    ((s.len : Nat) < s.cur + (if w then 3 else 2) →
      exec (.immediateToRegister w reg imm) s = .next { s with st := .failed .truncatedStream s.cur })

/-- 43_unimplemented_kinds.md (decisions D4 and D25): the three kinds without a decode rule raise `NotImplemented` under
`Strict`; under `Recoverable` they append the error record, skip the opcode byte and wait for the next opcode. -/
def Obligations.KindsWithoutDecodeRuleReportNotImplemented : Prop :=
  ∀ (s : State) (w : Bool) (i : Instr),
    i = .immediateToRegisterOrMemory w ∨ i = .memoryToAccumulator w ∨ i = .accumulatorToMemory w →
    (s.policy = .strict → exec i s = .next { s with st := .failed .notImplemented s.cur }) ∧
    (s.policy = .recoverable → exec i s = .next
      { s with out := s.out ++ [.error .notImplemented s.cur 1], cur := s.cur + 1, st := .awaitingOpcode })

/-- The frame of every instruction: it writes no byte of the buffer, no configuration register, not the length and not the
iteration counter; of the output it changes at most the end, by one record at the cursor. -/
def Obligations.InstructionFrame : Prop :=
  ∀ (i : Instr) (s t : State), exec i s = .next t →
    SameInputs s t ∧ (∀ a, t.buf.read a = s.buf.read a) ∧ t.iter = s.iter ∧
    ((t.out = s.out ∧ t.cur = s.cur) ∨ ∃ r, t.out = s.out ++ [r] ∧ r.offset = s.cur ∧ t.cur = s.cur + r.length)

/-- 41_register_form.md section 2, derived there: with the same register in both fields the direction flag does not matter
and the record names one register twice. -/
def Obligations.SameRegisterInBothFields : Prop :=
  ∀ (s : State) (d w : Bool) (reg : BitVec 3), s.cur + 2 ≤ s.len →
    ∃ t o, exec (.registerMemoryMove d w 0b11#2 reg reg) s = .next t ∧
      exec (.registerMemoryMove (!d) w 0b11#2 reg reg) s = .next t ∧
      t.out = s.out ++ [.decoded s.cur 2 .registerMemoryMove .mov o o] ∧
    ∃ t' o', exec (.arithmeticAdd d w 0b11#2 reg reg) s = .next t' ∧
      exec (.arithmeticAdd (!d) w 0b11#2 reg reg) s = .next t' ∧
      t'.out = s.out ++ [.decoded s.cur 2 .arithmeticAdd .add o' o']

/-- The derived round trip of 41_register_form.md section 2: from the record a register-form step appends and the opcode
byte, the fields and so the addressing-mode byte are recovered. -/
def Obligations.RegisterRecordRecoversItsByte : Prop :=
  ∀ (s t : State) (b0 b1 : Byte) (o n : Nat) (k k' : Kind) (mnemonic : Mnemonic) (D S : RegisterDescriptor),
    s.st = .decodingOperands k → k = .registerMemoryMove ∨ k = .arithmeticAdd →
    s.readByte s.cur = some b0 → s.readByte (s.cur + 1) = some b1 →
    step s = .next t → t.out = s.out ++ [.decoded o n k' mnemonic (.reg D) (.reg S)] →
    b1 = 0b11#2 ++ (if directionFlag b0 then D.index else S.index) ++ (if directionFlag b0 then S.index else D.index) ∧
    (widthFlag b0 = true ↔ D.width = .word)

/-! ## The engine (44_engine.md) -/

/-- A run executes what the decoder reads (44_engine.md section 1): in `AwaitingOpcode`, with the guard not firing, when the
bytes at the cursor decode to `i`, the step counts the classification and enters `DecodingOperands` of `i`'s kind, and the
next step is `exec i`. -/
def Obligations.StepsRunTheDecodedInstruction : Prop :=
  (∀ (s : State) (i : Instr) (rest : List Byte), s.st = .awaitingOpcode → s.cur < s.len →
    (∀ m, s.maxIterations = some m → s.iter < m) →
    decode s.T (s.bytesAt s.cur) = .ok (i, rest) →
    ∃ s1, s1 = { s with iter := s.iter + 1, st := .decodingOperands i.kind } ∧ step s = .next s1 ∧
      step s1 = exec i s1) ∧
  (∀ (s : State) (k : Kind) (i : Instr) (rest : List Byte), s.st = .decodingOperands k →
    decodeOperands k (s.bytesAt s.cur) = .ok (i, rest) → step s = exec i s)

/-- R192 and R222: the classification transition counts itself and moves to `DecodingOperands(k)`, or to
`Failed(UnknownOpcode)` at the cursor under either policy; cursor and output stay. -/
def Obligations.ClassificationTransition : Prop :=
  ∀ s : State, s.st = .awaitingOpcode → s.cur < s.len → (∀ m, s.maxIterations = some m → s.iter < m) →
    (∀ k, classify s.T (s.buf.read s.cur) = some k →
      step s = .next { s with iter := s.iter + 1, st := .decodingOperands k }) ∧
    (classify s.T (s.buf.read s.cur) = none →
      step s = .next { s with iter := s.iter + 1, st := .failed .unknownOpcode s.cur })

/-- Decisions D6 and D16 (44_engine.md section 1): end of stream first, whatever the count; then the iteration guard, under
either policy. -/
def Obligations.EndOfStreamBeforeIterationGuard : Prop :=
  ∀ s : State, s.st = .awaitingOpcode →
    (s.cur = s.len → step s = .next { s with st := .done }) ∧
    (s.cur < s.len → ∀ m, s.maxIterations = some m → m ≤ s.iter →
      step s = .next { s with st := .failed .iterationLimitExceeded s.cur })

/-- R194: from `DecodingOperands(k)` the engine takes the transition of an instruction of kind `k`, or the truncation of its
rule, and nothing else; it ends in `AwaitingOpcode` with the cursor advanced, or in `Failed`. -/
def Obligations.DispatchTakesTheKindsTransition : Prop :=
  ∀ (s : State) (k : Kind), s.st = .decodingOperands k → s.cur < s.len →
    ((∃ i rest, decodeOperands k (s.bytesAt s.cur) = .ok (i, rest) ∧ i.kind = k ∧ step s = exec i s) ∨
      (decodeOperands k (s.bytesAt s.cur) = .error .truncated ∧
        ∃ o, step s = .next { s with st := .failed .truncatedStream o })) ∧
    ∃ t, step s = .next t ∧ ((t.st = .awaitingOpcode ∧ s.cur < t.cur) ∨ ∃ e o, t.st = .failed e o)

/-- 44_engine.md section 1: no step is defined from `Done` or `Failed`. That the model's `step` answers the fault `noStep`
there is its own way to say so (log 12, DEDUCED). -/
def Obligations.TerminalStatesHaveNoStep : Prop :=
  ∀ s : State, (s.st = .done ∨ ∃ e o, s.st = .failed e o) → step s = .fault .noStep

/-- R227 and R225: `raise` sets `st` and changes nothing else, so cursor, count and records stay, and a step that enters
`Failed` is a `raise` at the cursor (after the classification has counted itself where the condition is `UnknownOpcode`). -/
def Obligations.RaiseIsTheOnlyWayIntoFailed : Prop :=
  (∀ (e : Condition) (o : Nat) (s : State), raise e o s = { s with st := .failed e o }) ∧
  ∀ (s t : State) (e : Condition) (o : Nat), step s = .next t → t.st = .failed e o →
    o = s.cur ∧
    (e ≠ .unknownOpcode → t = raise e o s) ∧
    (e = .unknownOpcode → t = raise e o { s with iter := s.iter + 1 })

/-- R223: a non-fatal condition ends the run under `Strict` and under `Recoverable` is skipped, the run continuing after the
instruction; `TruncatedStream` and `IterationLimitExceeded` end the run under either policy. -/
def Obligations.PolicyDecidesNonFatalConditions : Prop :=
  (∀ (i : Instr) (s : State) (e : NonFatal), conditionOf i = some e → s.cur + i.length ≤ s.len →
    ∃ t, exec i s = .next t ∧ (s.policy = .strict → ∃ o, t.st = .failed e.condition o) ∧
      (s.policy = .recoverable → t.st = .awaitingOpcode ∧ s.cur < t.cur)) ∧
  (∀ (s : State) (k : Kind), s.st = .decodingOperands k →
    decodeOperands k (s.bytesAt s.cur) = .error .truncated →
    ∃ t o, step s = .next t ∧ t.st = .failed .truncatedStream o) ∧
  (∀ (s : State) (m : Nat), s.st = .awaitingOpcode → s.cur < s.len → s.maxIterations = some m → m ≤ s.iter →
    ∃ t o, step s = .next t ∧ t.st = .failed .iterationLimitExceeded o)

/-- 10_state.md section 2 and R24: no step writes the buffer, the length or a configuration register. -/
def Obligations.StepKeepsInputs : Prop :=
  ∀ s t : State, step s = .next t → SameInputs s t

/-- R30: the output begins empty, and a step only appends, at most one record, that of the instruction at the cursor, while
the cursor never goes back. -/
def Obligations.OutputIsAppendOnly : Prop :=
  (∀ h s, start h = .next s → s.out = []) ∧
  ∀ s t : State, step s = .next t →
    s.cur ≤ t.cur ∧ (t.out = s.out ∨ ∃ r, t.out = s.out ++ [r] ∧ r.offset = s.cur)

/-- Decision D3 (10_state.md R22): the cursor moves only in the transition that completes an instruction, by the length of
the instruction, and that transition is the one that appends its record; it is 1, 2 or 3 bytes. -/
def Obligations.CursorMovesOnlyAtCompletion : Prop :=
  ∀ s t : State, step s = .next t →
    (t.cur = s.cur ∧ t.out = s.out) ∨
    ∃ k b0 r, s.st = .decodingOperands k ∧ s.readByte s.cur = some b0 ∧ t.st = .awaitingOpcode ∧
      t.out = s.out ++ [r] ∧ r.length = k.length b0 ∧ t.cur = s.cur + k.length b0 ∧
      1 ≤ k.length b0 ∧ k.length b0 ≤ 3

/-! ## Start (10_state.md §5, §6; 70_reset_and_hazards.md §1) -/

/-- R39: the values after a start. What the two defaults hold is decisions D9 and D11, not claimed here. -/
def Obligations.StartSetsTheState : Prop :=
  ∀ h s, start h = .next s →
    s.st = .awaitingOpcode ∧ s.cur = 0 ∧ s.iter = 0 ∧ s.out = [] ∧
    (∀ i : Fin 256, s.buf.read i.val = h.buf[i.val]) ∧ s.len = h.len ∧
    (h.table = none → s.T = defaultTable) ∧ (∀ tb, h.table = some tb → s.T.map suppliedEntry = tb) ∧
    (h.catalog = none → s.C = defaultCatalog) ∧ (∀ C, h.catalog = some C → s.C = C) ∧
    s.policy = h.policy ∧ s.maxIterations = h.maxIterations

/-- Decision D13 (70_reset_and_hazards.md section 1): a start is refused exactly when a check fails, and names the failed
checks. The list holds a check exactly when what the check forbids is in the host's input; an empty list begins the run, any
other refuses it with that list. That all failed checks are named, not one, is the model's choice (log 6). -/
def Obligations.StartRefusesByNamedCheck : Prop :=
  ∀ h : StartInput, ∃ failed,
    start h = (if failed = [] then .next h.initial else .refused (.startRefused failed)) ∧
    (.kindCode ∈ failed ↔ ∃ tb, h.table = some tb ∧ ∃ e ∈ tb, 6 ≤ e.kind.toNat) ∧
    (.patternInMask ∈ failed ↔ ∃ tb, h.table = some tb ∧ ∃ e ∈ tb, e.pattern &&& ~~~e.mask ≠ 0) ∧
    (.specificFirst ∈ failed ↔ ∃ tb, h.table = some tb ∧ ∃ i j : Fin tb.length, i < j ∧
      tb[i].kind ≠ tb[j].kind ∧ (tb[i].pattern ^^^ tb[j].pattern) &&& tb[i].mask &&& tb[j].mask = 0 ∧
      ¬(tb[i].mask &&& tb[j].mask = tb[j].mask ∧ tb[i].mask ≠ tb[j].mask)) ∧
    (.distinctNames ∈ failed ↔ ∃ C, h.catalog = some C ∧
      ∃ f w f' w', (lookup C f w).name = (lookup C f' w').name ∧ ¬(f = f' ∧ w = w'))

/-! ## Invariants and whole runs -/

/-- The state after reset, with the values the model chose (log 2, 3, 4), meets the invariant. -/
def Obligations.ResetMeetsInv : Prop := RunInv State.reset

/-- Every accepted start meets the invariant. -/
def Obligations.AcceptedStartMeetsInv : Prop := ∀ h s, start h = .next s → RunInv s

/-- Every step keeps the invariant: cursor, contiguity, soundness of the records, iteration count, offsets of failure and
the policy's promises (44_engine.md section 2, derived there). -/
def Obligations.StepKeepsInv : Prop := ∀ s t : State, RunInv s → step s = .next t → RunInv t

/-- 10_state.md section 6: in a state of a run that is not terminal the step answers a next state, so the model stops only
where the spec defines no step; the fault it stops with is the model's own (log 12). -/
def Obligations.RunStepsUnlessTerminal : Prop :=
  ∀ s : State, RunInv s →
    (s.st.terminal = false → ∃ t, step s = .next t) ∧ (s.st.terminal = true → step s = .fault .noStep)

/-- The derived iteration bounds of 44_engine.md section 2. -/
def Obligations.IterationsAreBounded : Prop :=
  ∀ s : State, RunInv s →
    s.iter ≤ s.len ∧
    (s.st = .awaitingOpcode ∨ s.st = .done → s.iter ≤ s.cur) ∧
    (∀ k, s.st = .decodingOperands k → s.iter ≤ s.cur + 1 ∧ s.cur < s.len) ∧
    (∀ e o, s.st = .failed e o → s.cur < s.len ∧ s.iter ≤ s.cur + 1 ∧
      (e = .iterationLimitExceeded → s.iter ≤ s.cur)) ∧
    (s.st = .done → s.iter = s.out.length) ∧
    (∀ e o, s.st = .failed e o → s.iter = s.out.length + if e = .iterationLimitExceeded then 0 else 1)

/-- Decisions D4 and D21 (10_state.md section 3): the shape of every record of a run. -/
def Obligations.RecordsHaveTheirShape : Prop :=
  ∀ s : State, RunInv s → ∀ r ∈ s.out, r.offset + r.length ≤ s.cur ∧
    ((∃ o k mnemonic f g w, (k = .registerMemoryMove ∧ mnemonic = .mov ∨ k = .arithmeticAdd ∧ mnemonic = .add) ∧
        r = .decoded o 2 k mnemonic (.reg (lookup s.C f w)) (.reg (lookup s.C g w))) ∨
      (∃ o f v, r = .decoded o 2 .immediateToRegister .mov (.reg (lookup s.C f .byte)) (.imm v) ∧
        -128 ≤ v ∧ v ≤ 127) ∨
      (∃ o f v, r = .decoded o 3 .immediateToRegister .mov (.reg (lookup s.C f .word)) (.imm v) ∧
        -32768 ≤ v ∧ v ≤ 32767) ∨
      (∃ o, r = .error .notImplemented o 1) ∨ (∃ o, r = .error .unsupportedAddressingMode o 2))

/-- The derived termination bound of 44_engine.md section 2: from any state of a run a terminal state is reached within two
steps for each byte left and one more. -/
def Obligations.EveryRunEnds : Prop :=
  ∀ s : State, RunInv s →
    ∃ k t, k ≤ 2 * (s.len - s.cur) + 1 ∧ runSteps k s = .next t ∧ t.st.terminal = true

/-- The derived contiguity of a finished run (44_engine.md section 2): when it ends in `Done` its records cover the whole
stream exactly once, when it fails at `o` they cover the bytes before `o` exactly once. -/
def Obligations.FinishedRunCoversItsStream : Prop :=
  ∀ h s t, start h = .next s → Reaches s t →
    (t.st = .done → CoversFrom 0 t.out h.len) ∧
    (∀ e o, t.st = .failed e o → CoversFrom 0 t.out o ∧ o < h.len)

/-- The derived policy rule of 44_engine.md section 2: a `Strict` run has only `Decoded` records; a `Recoverable` run fails
only for an unknown opcode, a truncated stream or the iteration limit. -/
def Obligations.PolicyOfAWholeRun : Prop :=
  ∀ h s t, start h = .next s → Reaches s t →
    (h.policy = .strict → ∀ r ∈ t.out, r.isDecoded = true) ∧
    (h.policy = .recoverable → ∀ e o, t.st = .failed e o →
      e = .unknownOpcode ∨ e = .truncatedStream ∨ e = .iterationLimitExceeded)

/-- A stream that is a row of instructions, each one that decodes or that the policy skips, is decoded to exactly their
records, in two steps an instruction and one more, and the run ends in `Done` (44_engine.md section 2, derived). -/
def Obligations.ParsedStreamYieldsItsRecords : Prop :=
  ∀ h s is, start h = .next s → ParsesAs s.T is s.streamBytes →
    (∀ i ∈ is, conditionOf i = none ∨ h.policy = .recoverable) →
    (∀ m, h.maxIterations = some m → is.length ≤ m) →
    runSteps (2 * is.length + 1) s = .next
      { s with st := .done, cur := s.len, iter := is.length, out := recordsFrom s.C 0 is }

/-- The converse, for `Done`: a run that ends in `Done` had a stream that is a row of instructions, its records are
exactly theirs, and under `Strict` every one of them decodes (44_engine.md section 2, derived). -/
def Obligations.FinishedRunParsedItsStream : Prop :=
  ∀ h s t, start h = .next s → Reaches s t → t.st = .done →
    ∃ is, ParsesAs s.T is s.streamBytes ∧ t.out = recordsFrom s.C 0 is ∧
      (h.policy = .strict → ∀ i ∈ is, conditionOf i = none)

/-- R53: the engine reads only below `len`. In a state of a run no step asks for a byte past it; a rule whose bytes are
missing raises `TruncatedStream`; and the bytes at and above `len` never affect a step, so never a run. -/
def Obligations.BytesPastTheLengthNeverMatter : Prop :=
  (∀ s : State, RunInv s → step s ≠ .fault .readPastStream) ∧
  (∀ (s : State) (k : Kind) (b0 : Byte), s.st = .decodingOperands k → s.readByte s.cur = some b0 →
    (s.len : Nat) < s.cur + k.length b0 → ∃ o, step s = .next { s with st := .failed .truncatedStream o }) ∧
  (∀ s s' : State, SameStream s s' →
    (∀ t, step s = .next t → ∃ t', step s' = .next t' ∧ SameStream t t') ∧
    (∀ f, step s = .fault f → step s' = .fault f) ∧
    (∀ n t, runSteps n s = .next t →
      ∃ t', runSteps n s' = .next t' ∧ observe t = observe t'))

/-- The derived rule on the empty stream (44_engine.md section 2). -/
def Obligations.EmptyStreamIsDoneAtOnce : Prop :=
  ∀ h s, start h = .next s → h.len = 0 →
    step s = .next { s with st := .done } ∧ s.out = [] ∧ s.iter = 0 ∧ s.cur = 0

/-! ## Buffer, text, placement -/

/-- About the model's own listing of the buffer, no rule of the spec: what an unlisted address reads as and the canonical
form are the model's choice (log 1). Two canonical buffers that read the same are equal. -/
def Obligations.CanonicalBuffersAreEqualWhenTheyReadTheSame : Prop :=
  ∀ m m' : Memory, m.wf = true → m'.wf = true → (∀ a, m.read a = m'.read a) → m = m'

/-- 30_encoding.md section 5: the text form of decoded records, with the spec's examples `mov bx, ax` and `mov al, 5` and
signed decimals. -/
def Obligations.TextOfDecodedRecords : Prop :=
  (∀ o n k D S, (Record.decoded o n k .mov (.reg D) (.reg S)).render = some ("mov" ++ " " ++ D.name ++ ", " ++ S.name)) ∧
  (∀ o n k D S, (Record.decoded o n k .add (.reg D) (.reg S)).render = some ("add" ++ " " ++ D.name ++ ", " ++ S.name)) ∧
  (recordOf defaultCatalog 0 (.registerMemoryMove false true 0b11#2 0 3)).render = some "mov bx, ax" ∧
  (recordOf defaultCatalog 0 (.immediateToRegister false 0 5)).render = some "mov al, 5" ∧
  (recordOf defaultCatalog 0 (.immediateToRegister true 0 0x8000)).render = some "mov ax, -32768"

/-- The model's own placement of an instruction (log 10): after it, the very next step runs the instruction the decoder
reads from the placed word, from any state whose cursor leaves room, under the default table. -/
def Obligations.PlacedWordRunsNext : Prop :=
  ∀ (s : State) (nbits w : Nat) (i : Instr), s.T = defaultTable → s.buf.wf = true → s.cur + 3 ≤ 256 →
    decodeTableWord nbits w = some i →
    step (s.withFetchWord nbits w) = exec i (s.withFetchWord nbits w) ∧
    (s.withFetchWord nbits w).st = .decodingOperands i.kind
end

