-- ==== Sys2Proof/Laws/Decode.lean ====
section
/-! SUPPORT. What the decoder can answer. -/

namespace Sys2Proof

@[simp] theorem classify_nil (b : Byte) : classify [] b = none := rfl

theorem classify_cons (e : OpcodeEntry) (T : OpcodeTable) (b : Byte) :
    classify (e :: T) b = if e.hits b then some e.kind else classify T b := rfl

/-- A kind's code stands for the kind, and no other code does. -/
theorem Kind.ofCode_eq_some (c : BitVec 3) (k : Kind) : Kind.ofCode c = some k ↔ c = k.code := by
  revert c; cases k <;> decide

theorem sext16_fits (lo : Byte) : immediateFits false (sext16 lo) = true := by
  revert lo; decide

theorem readImm_cases {w : Bool} {bs rest : List Byte} {imm : Word} (h : readImm w bs = some (imm, rest)) :
    (w = false ∧ ∃ lo, bs = lo :: rest ∧ imm = sext16 lo) ∨
    (w = true ∧ ∃ lo hi, bs = lo :: hi :: rest ∧ imm = concatBytes hi lo) := by
  revert h
  fun_cases readImm w bs <;> intro h <;> simp_all

/-- The bytes an instruction of kind `k` is read from, and its fields: the decoder's answers one by one. -/
theorem decodeOperands_cases {k : Kind} {bs rest : List Byte} {i : Instr} (h : decodeOperands k bs = .ok (i, rest)) :
    ∃ b0 tail, bs = b0 :: tail ∧
      ((k = .registerMemoryMove ∧ ∃ b1, tail = b1 :: rest ∧
          i = .registerMemoryMove (directionFlag b0) (widthFlag b0) (modField b1) (regField b1) (rmField b1)) ∨
       (k = .arithmeticAdd ∧ ∃ b1, tail = b1 :: rest ∧
          i = .arithmeticAdd (directionFlag b0) (widthFlag b0) (modField b1) (regField b1) (rmField b1)) ∨
       (k = .immediateToRegister ∧ ∃ imm, readImm (immWidthFlag b0) tail = some (imm, rest) ∧
          i = .immediateToRegister (immWidthFlag b0) (immRegField b0) imm) ∨
       (k = .immediateToRegisterOrMemory ∧ tail = rest ∧ i = .immediateToRegisterOrMemory (widthFlag b0)) ∨
       (k = .memoryToAccumulator ∧ tail = rest ∧ i = .memoryToAccumulator (widthFlag b0)) ∨
       (k = .accumulatorToMemory ∧ tail = rest ∧ i = .accumulatorToMemory (widthFlag b0))) := by
  cases bs with
  | nil => cases k <;> simp [decodeOperands] at h
  | cons b0 tail =>
    refine ⟨b0, tail, rfl, ?_⟩
    cases k <;> cases tail <;>
      simp_all [decodeOperands, decodeRegisterForm, decodeImmediateForm, eq_comm]
    all_goals
      split at h <;> simp_all [eq_comm]

/-- The decoder's instruction is of the kind asked for. -/
theorem decodeOperands_kind {k : Kind} {bs rest : List Byte} {i : Instr} (h : decodeOperands k bs = .ok (i, rest)) :
    i.kind = k := by
  obtain ⟨b0, tail, -, h⟩ := decodeOperands_cases h
  rcases h with ⟨rfl, _, -, rfl⟩ | ⟨rfl, _, -, rfl⟩ | ⟨rfl, _, -, rfl⟩ | ⟨rfl, -, rfl⟩ | ⟨rfl, -, rfl⟩ | ⟨rfl, -, rfl⟩ <;>
    rfl

/-- The decoder's instruction is well-formed. -/
theorem decodeOperands_wf {k : Kind} {bs rest : List Byte} {i : Instr} (h : decodeOperands k bs = .ok (i, rest)) :
    i.wf = true := by
  obtain ⟨b0, tail, -, h⟩ := decodeOperands_cases h
  rcases h with ⟨rfl, _, -, rfl⟩ | ⟨rfl, _, -, rfl⟩ | ⟨rfl, imm, hr, rfl⟩ | ⟨rfl, -, rfl⟩ | ⟨rfl, -, rfl⟩ | ⟨rfl, -, rfl⟩ <;>
    try rfl
  rcases readImm_cases hr with ⟨hw, lo, -, rfl⟩ | ⟨hw, lo, hi, -, rfl⟩
  · simpa [Instr.wf, hw] using sext16_fits lo
  · simp [Instr.wf, hw, immediateFits]

end Sys2Proof
end

