-- ==== Sys2Proof/Laws/State.lean ====
section
/-! SUPPORT. One lemma per field per update of the state, so that no later proof unfolds a record update. -/

namespace Sys2Proof.Machine

variable (s : State)

/-! ## raise -/

@[simp] theorem raise_buf (e : Condition) (o : Nat) : (raise e o s).buf = s.buf := rfl
@[simp] theorem raise_len (e : Condition) (o : Nat) : (raise e o s).len = s.len := rfl
@[simp] theorem raise_st (e : Condition) (o : Nat) : (raise e o s).st = .failed e o := rfl
@[simp] theorem raise_cur (e : Condition) (o : Nat) : (raise e o s).cur = s.cur := rfl
@[simp] theorem raise_iter (e : Condition) (o : Nat) : (raise e o s).iter = s.iter := rfl
@[simp] theorem raise_out (e : Condition) (o : Nat) : (raise e o s).out = s.out := rfl
@[simp] theorem raise_T (e : Condition) (o : Nat) : (raise e o s).T = s.T := rfl
@[simp] theorem raise_C (e : Condition) (o : Nat) : (raise e o s).C = s.C := rfl
@[simp] theorem raise_policy (e : Condition) (o : Nat) : (raise e o s).policy = s.policy := rfl
@[simp] theorem raise_maxIterations (e : Condition) (o : Nat) : (raise e o s).maxIterations = s.maxIterations := rfl

/-! ## complete -/

@[simp] theorem complete_buf (r : Record) (n : Nat) : (complete r n s).buf = s.buf := rfl
@[simp] theorem complete_len (r : Record) (n : Nat) : (complete r n s).len = s.len := rfl
@[simp] theorem complete_st (r : Record) (n : Nat) : (complete r n s).st = .awaitingOpcode := rfl
@[simp] theorem complete_cur (r : Record) (n : Nat) : (complete r n s).cur = s.cur + n := rfl
@[simp] theorem complete_iter (r : Record) (n : Nat) : (complete r n s).iter = s.iter := rfl
@[simp] theorem complete_out (r : Record) (n : Nat) : (complete r n s).out = s.out ++ [r] := rfl
@[simp] theorem complete_T (r : Record) (n : Nat) : (complete r n s).T = s.T := rfl
@[simp] theorem complete_C (r : Record) (n : Nat) : (complete r n s).C = s.C := rfl
@[simp] theorem complete_policy (r : Record) (n : Nat) : (complete r n s).policy = s.policy := rfl
@[simp] theorem complete_maxIterations (r : Record) (n : Nat) : (complete r n s).maxIterations = s.maxIterations := rfl

/-! ## nonFatal -/

theorem nonFatal_strict (e : NonFatal) (n : Nat) (h : s.policy = .strict) :
    nonFatal e n s = raise e.condition s.cur s := by simp [nonFatal, h]

theorem nonFatal_recoverable (e : NonFatal) (n : Nat) (h : s.policy = .recoverable) :
    nonFatal e n s = complete (.error e s.cur n) n s := by simp [nonFatal, h]

@[simp] theorem nonFatal_buf (e : NonFatal) (n : Nat) : (nonFatal e n s).buf = s.buf := by
  cases h : s.policy <;> simp [nonFatal, h]
@[simp] theorem nonFatal_len (e : NonFatal) (n : Nat) : (nonFatal e n s).len = s.len := by
  cases h : s.policy <;> simp [nonFatal, h]
@[simp] theorem nonFatal_iter (e : NonFatal) (n : Nat) : (nonFatal e n s).iter = s.iter := by
  cases h : s.policy <;> simp [nonFatal, h]
@[simp] theorem nonFatal_T (e : NonFatal) (n : Nat) : (nonFatal e n s).T = s.T := by
  cases h : s.policy <;> simp [nonFatal, h]
@[simp] theorem nonFatal_C (e : NonFatal) (n : Nat) : (nonFatal e n s).C = s.C := by
  cases h : s.policy <;> simp [nonFatal, h]
@[simp] theorem nonFatal_policy (e : NonFatal) (n : Nat) : (nonFatal e n s).policy = s.policy := by
  cases h : s.policy <;> simp [nonFatal, h]
@[simp] theorem nonFatal_maxIterations (e : NonFatal) (n : Nat) : (nonFatal e n s).maxIterations = s.maxIterations := by
  cases h : s.policy <;> simp [nonFatal, h]

/-! ## classifyOpcode -/

@[simp] theorem classifyOpcode_buf (b0 : Byte) : (classifyOpcode b0 s).buf = s.buf := by
  cases h : classify s.T b0 <;> simp [classifyOpcode, h]
@[simp] theorem classifyOpcode_len (b0 : Byte) : (classifyOpcode b0 s).len = s.len := by
  cases h : classify s.T b0 <;> simp [classifyOpcode, h]
@[simp] theorem classifyOpcode_cur (b0 : Byte) : (classifyOpcode b0 s).cur = s.cur := by
  cases h : classify s.T b0 <;> simp [classifyOpcode, h]
@[simp] theorem classifyOpcode_iter (b0 : Byte) : (classifyOpcode b0 s).iter = s.iter := by
  cases h : classify s.T b0 <;> simp [classifyOpcode, h]
@[simp] theorem classifyOpcode_out (b0 : Byte) : (classifyOpcode b0 s).out = s.out := by
  cases h : classify s.T b0 <;> simp [classifyOpcode, h]
@[simp] theorem classifyOpcode_T (b0 : Byte) : (classifyOpcode b0 s).T = s.T := by
  cases h : classify s.T b0 <;> simp [classifyOpcode, h]
@[simp] theorem classifyOpcode_C (b0 : Byte) : (classifyOpcode b0 s).C = s.C := by
  cases h : classify s.T b0 <;> simp [classifyOpcode, h]
@[simp] theorem classifyOpcode_policy (b0 : Byte) : (classifyOpcode b0 s).policy = s.policy := by
  cases h : classify s.T b0 <;> simp [classifyOpcode, h]
@[simp] theorem classifyOpcode_maxIterations (b0 : Byte) : (classifyOpcode b0 s).maxIterations = s.maxIterations := by
  cases h : classify s.T b0 <;> simp [classifyOpcode, h]

theorem classifyOpcode_none (b0 : Byte) (h : classify s.T b0 = none) :
    classifyOpcode b0 s = raise .unknownOpcode s.cur s := by simp [classifyOpcode, h]

theorem classifyOpcode_some (b0 : Byte) (k : Kind) (h : classify s.T b0 = some k) :
    classifyOpcode b0 s = { s with st := .decodingOperands k } := by simp [classifyOpcode, h]

/-! ## ReadByte -/

theorem readByte_below (i : Nat) (h : i < s.len) : s.readByte i = some (s.buf.read i) := by
  simp [State.readByte, h]

theorem readByte_none (i : Nat) (h : (s.len : Nat) ≤ i) : s.readByte i = none := by
  simp [State.readByte, Nat.not_lt.mpr h]

theorem readByte_some (i : Nat) (b : Byte) (h : s.readByte i = some b) : i < s.len ∧ s.buf.read i = b := by
  simpa [State.readByte] using h

/-- The bytes at an offset below the length begin with the byte there. -/
theorem bytesAt_cons (o : Nat) (h : o < s.len) : ∃ bs, s.bytesAt o = s.buf.read o :: bs := by
  simp [State.bytesAt, longestInstr, List.range', readByte_below s o h]

/-- There is no byte at or above the length. -/
theorem bytesAt_nil (o : Nat) (h : (s.len : Nat) ≤ o) : s.bytesAt o = [] := by
  simp [State.bytesAt, longestInstr, List.range', State.readByte]
  omega

end Sys2Proof.Machine
end

