-- ==== Sys2Proof/Laws/Exec.lean ====
section
/-! SUPPORT. What the meanings can answer, said once: every proof about an instruction cites these. -/

namespace Sys2Proof.Machine

/-- The truncation check answers the rest of the instruction or the condition, nothing else. -/
theorem needBytes_cases {n : Nat} {s rest t : State} (h : needBytes n s rest = .next t) :
    (s.cur + n ≤ s.len ∧ t = rest) ∨ (s.len < s.cur + n ∧ t = raise .truncatedStream s.cur s) := by
  unfold needBytes at h
  split at h
  · exact .inl ⟨‹_›, by simpa using h.symm⟩
  · exact .inr ⟨by omega, by simpa using h.symm⟩

/-- A non-fatal condition is fatal under `Strict` and an error record under `Recoverable`. -/
theorem nonFatal_cases (e : NonFatal) (n : Nat) (s : State) :
    (s.policy = .strict ∧ nonFatal e n s = raise e.condition s.cur s) ∨
    (s.policy = .recoverable ∧ nonFatal e n s = complete (.error e s.cur n) n s) := by
  cases h : s.policy
  · exact .inl ⟨rfl, nonFatal_strict s e n h⟩
  · exact .inr ⟨rfl, nonFatal_recoverable s e n h⟩

/-- The operand decoder: both registers when `mod` is 11, no answer otherwise. -/
theorem decodeRM_eq (C : Catalog) (mod : BitVec 2) (reg rm : BitVec 3) (d w : Bool) :
    decodeRM C mod reg rm d w =
      if mod = 0b11#2 then
        some (if d then (lookup C reg (widthOf w), lookup C rm (widthOf w))
          else (lookup C rm (widthOf w), lookup C reg (widthOf w)))
      else none := by
  unfold decodeRM orient
  rfl

/-- The bytes of the instruction are all in the stream; the kinds of format U check nothing, their one byte having been
read (44_engine.md R203). -/
abbrev fits (i : Instr) (s : State) : Prop := i.length = 1 ∨ s.cur + i.length ≤ s.len

/-- Everything a meaning can do: the truncation condition, the instruction's own condition under `Strict`, or its record
and the advance of the cursor. -/
theorem exec_cases {i : Instr} {s t : State} (h : exec i s = .next t) :
    (s.len < s.cur + i.length ∧ t = raise .truncatedStream s.cur s) ∨
    (fits i s ∧ ∃ e, conditionOf i = some e ∧ s.policy = .strict ∧ t = raise e.condition s.cur s) ∨
    (fits i s ∧ (conditionOf i ≠ none → s.policy = .recoverable) ∧
      t = complete (recordOf s.C s.cur i) i.length s) := by
  cases i with
  | registerMemoryMove d w mod reg rm | arithmeticAdd d w mod reg rm =>
    rcases needBytes_cases h with ⟨hl, rfl⟩ | ⟨hl, rfl⟩
    · rw [decodeRM_eq]
      by_cases hm : mod = 0b11#2
      · refine .inr (.inr ⟨.inr hl, by simp [conditionOf, hm], ?_⟩)
        cases d <;> simp [recordOf, conditionOf, hm, registerOperands, Instr.length]
      · rcases nonFatal_cases .unsupportedAddressingMode 2 s with ⟨hp, hn⟩ | ⟨hp, hn⟩
        · exact .inr (.inl ⟨.inr hl, .unsupportedAddressingMode, by simp [conditionOf, hm], hp, by simp [hm, hn]⟩)
        · exact .inr (.inr ⟨.inr hl, fun _ => hp, by simp [hm, hn, recordOf, conditionOf, Instr.length]⟩)
    · exact .inl ⟨hl, rfl⟩
  | immediateToRegister w reg imm =>
    rcases needBytes_cases h with ⟨hl, rfl⟩ | ⟨hl, rfl⟩
    · exact .inr (.inr ⟨.inr hl, by simp [conditionOf], rfl⟩)
    · exact .inl ⟨hl, rfl⟩
  | immediateToRegisterOrMemory w | memoryToAccumulator w | accumulatorToMemory w =>
    obtain rfl : nonFatal .notImplemented 1 s = t := by
      simpa [exec, execImmediateToRegisterOrMemory, execMemoryToAccumulator, execAccumulatorToMemory,
        withoutDecodeRule] using h
    rcases nonFatal_cases .notImplemented 1 s with ⟨hp, hn⟩ | ⟨hp, hn⟩
    · exact .inr (.inl ⟨.inl rfl, _, rfl, hp, hn⟩)
    · exact .inr (.inr ⟨.inl rfl, fun _ => hp, hn⟩)

/-- A meaning always answers a next state. -/
theorem exec_next (i : Instr) (s : State) : ∃ t, exec i s = .next t := by
  cases i <;>
    simp only [exec, execRegisterMemoryMove, execArithmeticAdd, execImmediateToRegister,
      execImmediateToRegisterOrMemory, execMemoryToAccumulator, execAccumulatorToMemory, registerForm,
      withoutDecodeRule, needBytes] <;>
    first | exact ⟨_, rfl⟩ | (split <;> exact ⟨_, rfl⟩)

end Sys2Proof.Machine
end

