-- ==== Sys2Proof/Laws/Memory.lean ====
section
/-! SUPPORT. The laws of the input buffer: a read after a write, and that every operation keeps the canonical form. -/

namespace Sys2Proof.Machine

@[simp] theorem Memory.read_nil (a : Nat) : Memory.read [] a = Memory.unlisted := rfl

/-- Nothing below the first address of a canonical memory is listed. -/
theorem Memory.read_below {lo : Nat} {m : Memory} (hm : Memory.wfFrom lo m = true) {a : Nat} (ha : a < lo) :
    Memory.read m a = Memory.unlisted := by
  induction m generalizing lo with
  | nil => rfl
  | cons c m ih =>
    obtain ⟨a', v'⟩ := c
    simp only [Memory.wfFrom, Bool.and_eq_true, decide_eq_true_eq] at hm
    simp only [Memory.read]
    rw [if_neg (by omega)]
    exact ih hm.2 (by omega)

theorem Memory.read_cell_append (a : Nat) (v : Byte) (m : Memory) (h : Memory.read m a = Memory.unlisted) (x : Nat) :
    Memory.read (Memory.cell a v ++ m) x = if x = a then v else Memory.read m x := by
  unfold Memory.cell
  split
  · rename_i hv
    by_cases hx : x = a <;> simp [hx, hv, h]
  · simp [Memory.read]

theorem Memory.read_insert {lo : Nat} {m : Memory} (hm : Memory.wfFrom lo m = true) (a : Nat) (v : Byte) (x : Nat) :
    Memory.read (Memory.insert a v m) x = if x = a then v else Memory.read m x := by
  induction m generalizing lo with
  | nil => simpa [Memory.insert] using Memory.read_cell_append a v [] rfl x
  | cons c m ih =>
    obtain ⟨a', v'⟩ := c
    have hall := hm
    simp only [Memory.wfFrom, Bool.and_eq_true, decide_eq_true_eq] at hm
    simp only [Memory.insert]
    split
    · exact Memory.read_cell_append a v _ (Memory.read_below (lo := a') (by simp [Memory.wfFrom, hm]) ‹_›) x
    · split
      · subst a'
        rw [Memory.read_cell_append a v m (Memory.read_below hm.2 (by omega)) x]
        by_cases hx : x = a <;> simp [hx, Memory.read]
      · by_cases hx : x = a'
        · subst hx
          simp [Memory.read, Ne.symm ‹¬a = x›]
        · simp only [Memory.read, if_neg hx, ih hm.2]

/-- A read after a write: the byte written at its address, every other byte as before. -/
theorem Memory.read_write {m : Memory} (hm : m.wf = true) {a : Nat} (ha : a < Config.bufMax) (v : Byte) (x : Nat) :
    (m.write a v).read x = if x = a then v else m.read x := by
  simpa [Memory.write, ha] using Memory.read_insert (lo := 0) hm a v x

theorem Memory.wfFrom_mono {lo lo' : Nat} (h : lo' ≤ lo) {m : Memory} (hm : Memory.wfFrom lo m = true) :
    Memory.wfFrom lo' m = true := by
  cases m with
  | nil => rfl
  | cons c m =>
    simp only [Memory.wfFrom, Bool.and_eq_true, decide_eq_true_eq] at hm ⊢
    exact ⟨⟨⟨by omega, hm.1.1.2⟩, hm.1.2⟩, hm.2⟩

theorem Memory.wfFrom_cell_append {lo a : Nat} (hlo : lo ≤ a) (ha : a < Config.bufMax) (v : Byte) {m : Memory}
    (hm : Memory.wfFrom (a + 1) m = true) : Memory.wfFrom lo (Memory.cell a v ++ m) = true := by
  unfold Memory.cell
  split
  · exact Memory.wfFrom_mono (by omega) hm
  · simp only [List.singleton_append, Memory.wfFrom, Bool.and_eq_true, decide_eq_true_eq]
    exact ⟨⟨⟨hlo, ha⟩, ‹_›⟩, hm⟩

theorem Memory.wfFrom_insert {lo : Nat} {m : Memory} (hm : Memory.wfFrom lo m = true) {a : Nat} (hlo : lo ≤ a)
    (ha : a < Config.bufMax) (v : Byte) : Memory.wfFrom lo (Memory.insert a v m) = true := by
  induction m generalizing lo with
  | nil => simpa [Memory.insert] using Memory.wfFrom_cell_append hlo ha v (m := []) rfl
  | cons c m ih =>
    obtain ⟨a', v'⟩ := c
    simp only [Memory.wfFrom, Bool.and_eq_true, decide_eq_true_eq] at hm
    simp only [Memory.insert]
    split
    · refine Memory.wfFrom_cell_append hlo ha v ?_
      simp only [Memory.wfFrom, Bool.and_eq_true, decide_eq_true_eq]
      exact ⟨⟨⟨by omega, hm.1.1.2⟩, hm.1.2⟩, hm.2⟩
    · split
      · subst a'
        exact Memory.wfFrom_cell_append hlo ha v hm.2
      · simp only [Memory.wfFrom, Bool.and_eq_true, decide_eq_true_eq]
        exact ⟨hm.1, ih hm.2 (by omega)⟩

/-- A write keeps the canonical form. -/
theorem Memory.wf_write {m : Memory} (hm : m.wf = true) (a : Nat) (v : Byte) : (m.write a v).wf = true := by
  unfold Memory.write
  split
  · exact Memory.wfFrom_insert hm (Nat.zero_le a) ‹_› v
  · exact hm

theorem Memory.wf_writeAll {m : Memory} (hm : m.wf = true) (a : Nat) (vs : List Byte) :
    (m.writeAll a vs).wf = true := by
  induction vs generalizing m a with
  | nil => exact hm
  | cons v vs ih => exact ih (Memory.wf_write hm a v) (a + 1)

/-- The listing of bytes that lie inside the buffer is canonical. -/
theorem Memory.wfFrom_ofBytes (a : Nat) (vs : List Byte) (h : a + vs.length ≤ Config.bufMax) :
    Memory.wfFrom a (Memory.ofBytes a vs) = true := by
  induction vs generalizing a with
  | nil => rfl
  | cons v vs ih =>
    simp only [List.length_cons] at h
    exact Memory.wfFrom_cell_append (Nat.le_refl a) (by omega) v (ih (a + 1) (by omega))

/-- The listing reads as the bytes it lists. -/
theorem Memory.read_ofBytes (a : Nat) (vs : List Byte) (h : a + vs.length ≤ Config.bufMax) (x : Nat) :
    Memory.read (Memory.ofBytes a vs) (a + x) = vs.getD x Memory.unlisted := by
  induction vs generalizing a x with
  | nil => rfl
  | cons v vs ih =>
    simp only [List.length_cons] at h
    have hb := Memory.read_below (Memory.wfFrom_ofBytes (a + 1) vs (by omega)) (Nat.lt_succ_self a)
    simp only [Memory.ofBytes]
    rw [Memory.read_cell_append a v _ hb]
    cases x with
    | zero => simp
    | succ x =>
      rw [if_neg (by omega)]
      simpa [Nat.add_comm, Nat.add_left_comm] using ih (a + 1) (by omega) x

end Sys2Proof.Machine
end

