-- ==== Sys2Proof/Laws/PerInstr.lean ====
section
/-! SUPPORT. Statements about every instruction as syntax, one lemma per constructor. -/

namespace Sys2Proof.Laws

/-- The encoding has as many bytes as the instruction's length says (30_encoding.md R70). -/
def EncodedLength.Statement (i : Instr) : Prop := (encode i).length = i.length

theorem EncodedLength.registerMemoryMove (d w : Bool) (mod : BitVec 2) (reg rm : BitVec 3) :
    EncodedLength.Statement (.registerMemoryMove d w mod reg rm) := rfl

theorem EncodedLength.immediateToRegister (w : Bool) (reg : BitVec 3) (imm : Word) :
    EncodedLength.Statement (.immediateToRegister w reg imm) := by
  cases w <;> rfl

theorem EncodedLength.immediateToRegisterOrMemory (w : Bool) :
    EncodedLength.Statement (.immediateToRegisterOrMemory w) := rfl

theorem EncodedLength.memoryToAccumulator (w : Bool) : EncodedLength.Statement (.memoryToAccumulator w) := rfl

theorem EncodedLength.accumulatorToMemory (w : Bool) : EncodedLength.Statement (.accumulatorToMemory w) := rfl

theorem EncodedLength.arithmeticAdd (d w : Bool) (mod : BitVec 2) (reg rm : BitVec 3) :
    EncodedLength.Statement (.arithmeticAdd d w mod reg rm) := rfl

/-- The default table classifies the first byte of the encoding to the instruction's kind (30_encoding.md R81). -/
def EncodedKind.Statement (i : Instr) : Prop := (encode i).head?.bind (classify defaultTable) = some i.kind

theorem EncodedKind.registerMemoryMove (d w : Bool) (mod : BitVec 2) (reg rm : BitVec 3) :
    EncodedKind.Statement (.registerMemoryMove d w mod reg rm) := by
  cases d <;> cases w <;> rfl

theorem EncodedKind.immediateToRegister (w : Bool) (reg : BitVec 3) (imm : Word) :
    EncodedKind.Statement (.immediateToRegister w reg imm) := by
  have key : ∀ (w : Bool) (reg : BitVec 3), classify defaultTable (immediateOpcode w reg) = some .immediateToRegister := by
    decide
  cases w <;> exact key _ reg

theorem EncodedKind.immediateToRegisterOrMemory (w : Bool) :
    EncodedKind.Statement (.immediateToRegisterOrMemory w) := by
  cases w <;> rfl

theorem EncodedKind.memoryToAccumulator (w : Bool) : EncodedKind.Statement (.memoryToAccumulator w) := by
  cases w <;> rfl

theorem EncodedKind.accumulatorToMemory (w : Bool) : EncodedKind.Statement (.accumulatorToMemory w) := by
  cases w <;> rfl

theorem EncodedKind.arithmeticAdd (d w : Bool) (mod : BitVec 2) (reg rm : BitVec 3) :
    EncodedKind.Statement (.arithmeticAdd d w mod reg rm) := by
  cases d <;> cases w <;> rfl

end Sys2Proof.Laws
end

