-- ==== Sys2Proof/Laws/Step.lean ====
section
/-! SUPPORT. What a step can do, said once: every invariant is derived from `step_cases`. -/

namespace Sys2Proof.Machine

/-- The transition from `AwaitingOpcode`: end of stream, the guard, or the classification of the byte at the cursor. -/
theorem awaitingStep_cases {s t : State} (h : awaitingStep s = .next t) :
    (s.cur = s.len ∧ t = { s with st := .done }) ∨
    (s.cur ≠ s.len ∧ guardFires s = true ∧ t = raise .iterationLimitExceeded s.cur s) ∨
    (s.cur < s.len ∧ guardFires s = false ∧
      t = classifyOpcode (s.buf.read s.cur) { s with iter := s.iter + 1 }) := by
  unfold awaitingStep at h
  split at h
  · exact .inl ⟨‹_›, by simpa using h.symm⟩
  · split at h
    · exact .inr (.inl ⟨‹_›, ‹_›, by simpa using h.symm⟩)
    · split at h
      · simp at h
      · rename_i hb
        obtain ⟨hlt, rfl⟩ := readByte_some s s.cur _ hb
        exact .inr (.inr ⟨hlt, by simpa using ‹¬guardFires s = true›, by simpa using h.symm⟩)

/-- Everything a step can do, by the engine state it starts from. -/
theorem step_cases {s t : State} (h : step s = .next t) :
    (s.st = .awaitingOpcode ∧ awaitingStep s = .next t) ∨
    (∃ k i rest, s.st = .decodingOperands k ∧ decodeOperands k (s.bytesAt s.cur) = .ok (i, rest) ∧
      exec i s = .next t) ∨
    (∃ k e, s.st = .decodingOperands k ∧ decodeOperands k (s.bytesAt s.cur) = .error e ∧
      fetchFailed e s = .next t) := by
  unfold step at h
  split at h
  · exact .inl ⟨‹_›, h⟩
  · rename_i k hk
    unfold fetchInstr at h
    cases hd : decodeOperands k (s.bytesAt s.cur) with
    | ok p => exact .inr (.inl ⟨k, p.1, p.2, hk, hd, by simpa [hd] using h⟩)
    | error e => exact .inr (.inr ⟨k, e, hk, hd, by simpa [hd] using h⟩)
  · simp at h
  · simp at h

end Sys2Proof.Machine
end

