-- ==== Sys2Proof/Laws/Run.lean ====
section
/-! SUPPORT. Runs, one step at a time, and the one induction over a run. -/

namespace Sys2Proof.Machine

@[simp] theorem runSteps_zero (s : State) : runSteps 0 s = .next s := rfl

/-- One step first, then the rest. -/
theorem runSteps_succ (k : Nat) (s : State) :
    runSteps (k + 1) s =
      match step s with
      | .next s' => runSteps k s'
      | .fault f => .fault f
      | .refused r => .refused r := by
  cases h : step s <;> simp only [runSteps, Host.Core.run, core, h]

theorem runSteps_succ_next {s s' : State} (h : step s = .next s') (k : Nat) : runSteps (k + 1) s = runSteps k s' := by
  rw [runSteps_succ, h]

/-- A run of `k + 1` steps that answers a state takes a step first. -/
theorem runSteps_succ_cases {s t : State} {k : Nat} (h : runSteps (k + 1) s = .next t) :
    ∃ s', step s = .next s' ∧ runSteps k s' = .next t := by
  rw [runSteps_succ] at h
  split at h
  · exact ⟨_, ‹_›, h⟩
  · cases h
  · cases h

/-- What every step keeps, every run keeps. -/
theorem runSteps_keeps {P : State → Prop} (keep : ∀ s t, P s → step s = .next t → P t) {k : Nat} {s t : State}
    (hs : P s) (h : runSteps k s = .next t) : P t := by
  induction k generalizing s with
  | zero =>
    obtain rfl : s = t := by simpa using h
    exact hs
  | succ k ih =>
    obtain ⟨s', h1, h2⟩ := runSteps_succ_cases h
    exact ih (keep s s' hs h1) h2

end Sys2Proof.Machine
end

