-- ==== Sys2Proof/Laws/Start.lean ====
section
/-! SUPPORT. What a start can answer, and that the defaults pass its checks. -/

namespace Sys2Proof.Machine

/-- A start begins a run in the initial state, or is refused with the failed checks. -/
theorem start_cases (h : StartInput) :
    (h.failedChecks = [] ∧ start h = .next h.initial) ∨
    (h.failedChecks ≠ [] ∧ start h = .refused (.startRefused h.failedChecks)) := by
  by_cases hf : h.failedChecks = []
  · exact .inl ⟨hf, by simp [start, hf]⟩
  · exact .inr ⟨hf, by simp [start, hf]⟩

/-- The default table passes the checks of a start (40_classifier_extractor_catalog.md R104). -/
theorem defaultTable_passes : failedTableChecks (defaultTable.map suppliedEntry) = [] := by decide

/-- The default catalog passes the check of a start (R116). -/
theorem defaultCatalog_passes : distinctNamesHolds defaultCatalog = true := by decide

end Sys2Proof.Machine
end

