-- ==== Sys2Proof/Machine/Codes.lean ====
section
/-! DEFINITION. The binary codes the spec gives its enumerations (10_state.md R21, R28; 60_exceptions.md R220). No rule
reads them (decisions D7, D8). -/

namespace Sys2Proof.Machine

/-- The policy's code (R28). -/
def policyCode : Policy → BitVec 1
  | .strict => 0
  | .recoverable => 1

/-- The condition's code (R220). -/
def Condition.code : Condition → BitVec 3
  | .unknownOpcode => 1
  | .notImplemented => 2
  | .unsupportedAddressingMode => 3
  | .truncatedStream => 4
  | .iterationLimitExceeded => 5

/-- The engine state's tag (R21). -/
def EngineState.tag : EngineState → BitVec 2
  | .awaitingOpcode => 0
  | .decodingOperands _ => 1
  | .done => 2
  | .failed _ _ => 3

/-- The engine state's kind code, where it has one (R21). -/
def EngineState.kindCode : EngineState → Option (BitVec 3)
  | .decodingOperands k => some k.code
  | _ => none

/-- The engine state's error code and 9-bit offset, where it has them (R21). -/
def EngineState.errorCode : EngineState → Option (BitVec 3 × BitVec 9)
  | .failed e o => some (e.code, BitVec.ofNat 9 o)
  | _ => none

end Sys2Proof.Machine
end

