-- ==== Sys2Proof/Tests/Slice0.lean ====
section
/-! SUPPORT. The model's own tests. Expected results are those of spec/95_test_vectors.md (V<n>) or written out by hand from
the encodings of 30_encoding.md. The last sections show, for every statement with hypotheses, a concrete case that meets
them all. -/

namespace Sys2Proof.Tests

open Sys2Proof Sys2Proof.Machine

/-! ## Small states -/

/-- A stream of bytes at the cursor 0, waiting for its first opcode. -/
def waiting (bs : List Byte) (p : Policy) : State :=
  { State.reset with buf := Memory.ofBytes 0 bs, len := Fin.ofNat 257 bs.length, policy := p }

/-- The same after the classification of its first byte. -/
def decoding (bs : List Byte) (k : Kind) (p : Policy) : State :=
  { waiting bs p with st := .decodingOperands k, iter := 1 }

/-- A waiting state with one classification left. -/
def limited (bs : List Byte) : State := { waiting bs .strict with maxIterations := some 1 }

/-- The next state of an outcome, where there is one. -/
def nextOf : Host.Outcome State Fault Refusal → Option State
  | .next t => some t
  | .fault _ => none
  | .refused _ => none

/-- Text, status and cursor after one step: what a test vector shows. -/
def seen (o : Host.Outcome State Fault Refusal) : Option (List (Option String) × EngineState × Nat) :=
  (nextOf o).map fun t => (t.out.map Record.render, t.st, t.cur)

/-- A host input with default tables. -/
def input (bs : List Byte) (p : Policy) : StartInput where
  buf := Vector.ofFn fun i => bs.getD i.val 0
  len := Fin.ofNat 257 bs.length
  table := none
  catalog := none
  policy := p
  maxIterations := none

/-! ## Well-formedness -/

/-- An ill-formed term: a byte-width immediate of 0x0080, which no byte's sign extension gives (R152). -/
theorem test_wf_refuses_immediate : (Instr.immediateToRegister false 0 0x0080).wf = false := by decide

theorem test_wf_accepts_immediate : (Instr.immediateToRegister false 0 0xFF80).wf = true := by decide

/-! ## Decoding: one word of each kind, bit by bit (30_encoding.md R71 to R75) -/

/-- `100010 d=0 w=1`, `11 000 011` (V1). -/
theorem test_decode_registerMemoryMove :
    decode defaultTable [0b10001001, 0b11000011] = .ok (.registerMemoryMove false true 3 0 3, []) := by decide

/-- `1011 w=1 reg=100`, low byte 0x00, high byte 0x01 (V82). -/
theorem test_decode_immediateToRegister_word :
    decode defaultTable [0b10111100, 0x00, 0x01] = .ok (.immediateToRegister true 4 0x0100, []) := by decide

/-- `1011 w=0 reg=100`, byte 0x81, sign-extended (V78). -/
theorem test_decode_immediateToRegister_byte :
    decode defaultTable [0b10110100, 0x81] = .ok (.immediateToRegister false 4 0xFF81, []) := by decide

/-- `1100011 w=1` (R171). -/
theorem test_decode_immediateToRegisterOrMemory :
    decode defaultTable [0b11000111, 0x06] = .ok (.immediateToRegisterOrMemory true, [0x06]) := by decide

/-- `1010000 w=1` (R172: `A1 34 12`). -/
theorem test_decode_memoryToAccumulator :
    decode defaultTable [0b10100001, 0x34, 0x12] = .ok (.memoryToAccumulator true, [0x34, 0x12]) := by decide

/-- `1010001 w=0` (R173). -/
theorem test_decode_accumulatorToMemory :
    decode defaultTable [0b10100010] = .ok (.accumulatorToMemory false, []) := by decide

/-- `000000 d=1 w=0`, `11 000 011` (P2: `02 C3`). -/
theorem test_decode_arithmeticAdd :
    decode defaultTable [0b00000010, 0b11000011] = .ok (.arithmeticAdd true false 3 0 3, []) := by decide

/-- A memory mode is an instruction with its own mode field (V63). -/
theorem test_decode_memory_mode :
    decode defaultTable [0x89, 0b01000110] = .ok (.registerMemoryMove false true 1 0 6, []) := by decide

/-- V11, V14, V20, V22: bytes beside the default entries. -/
theorem test_decode_unrecognized :
    [0x04, 0x05, 0x87, 0x8C, 0x8E, 0x9F, 0xA4, 0xAF, 0xC0, 0xC5, 0xC8, 0xFF, 0x26, 0xF3].map (classify defaultTable) =
      List.replicate 14 none := by decide

/-- The host's numbering: the second byte is bits 15..8 (`89 C3`). -/
theorem test_decodeTableWord : decodeTableWord 16 0xC389 = some (.registerMemoryMove false true 3 0 3) := by decide

/-- The row's fixed bits alone, operand bytes of zeros. -/
theorem test_decodeTableWord_short : decodeTableWord 8 0xB8 = some (.immediateToRegister true 0 0) := by decide

theorem test_encode_addressing_byte : encode (.registerMemoryMove true true 3 3 0) = [0x8B, 0xD8] := by decide

/-! ## Extractor and catalog (V33, V37, V40, V46, V48) -/

theorem test_extract : [extract 0x46 0xC0 6, extract 0x46 0x38 3, extract 0x46 0x07 0] = [1, 0, 6] := by decide

theorem test_flags : [flag 0x89 0x01, flag 0x89 0x02, flag 0x8B 0x02, flag 0xB5 0x08] = [true, false, true, false] := by
  decide

theorem test_lookup : [(lookup defaultCatalog 4 .byte).name, (lookup defaultCatalog 4 .word).name] = ["ah", "sp"] := by
  decide

theorem test_reverse : reverse defaultCatalog "si" = some (6, .word) := by decide

/-! ## One step of each instruction -/

/-- V1. -/
theorem test_mov_register : seen (step (decoding [0x89, 0xC3] .registerMemoryMove .strict)) =
    some ([some "mov bx, ax"], .awaitingOpcode, 2) := by decide

/-- V64: a memory mode is skipped under `Recoverable`. -/
theorem test_mov_memory_mode : nextOf (step (decoding [0x89, 0x46] .registerMemoryMove .recoverable)) =
    some { waiting [0x89, 0x46] .recoverable with
      cur := 2, iter := 1, out := [.error .unsupportedAddressingMode 0 2] } := by decide

/-- V62: `d = 1`. -/
theorem test_add_register : seen (step (decoding [0x03, 0xC8] .arithmeticAdd .strict)) =
    some ([some "add cx, ax"], .awaitingOpcode, 2) := by decide

/-- V68: the addressing-mode byte is missing. -/
theorem test_add_truncated : seen (step (decoding [0x01] .arithmeticAdd .recoverable)) =
    some ([], .failed .truncatedStream 0, 0) := by decide

/-- V83: low byte first. -/
theorem test_mov_immediate_word : seen (step (decoding [0xBF, 0x39, 0x30] .immediateToRegister .strict)) =
    some ([some "mov di, 12345"], .awaitingOpcode, 3) := by decide

/-- V77: the byte is sign-extended. -/
theorem test_mov_immediate_byte : seen (step (decoding [0xB0, 0x80] .immediateToRegister .strict)) =
    some ([some "mov al, -128"], .awaitingOpcode, 2) := by decide

/-- V92. -/
theorem test_immediateToRegisterOrMemory_strict :
    seen (step (decoding [0xC6, 0x06] .immediateToRegisterOrMemory .strict)) =
      some ([], .failed .notImplemented 0, 0) := by decide

/-- R172: `A1 34 12` under `Recoverable`. -/
theorem test_memoryToAccumulator_recoverable :
    nextOf (step (decoding [0xA1, 0x34, 0x12] .memoryToAccumulator .recoverable)) =
      some { waiting [0xA1, 0x34, 0x12] .recoverable with
        cur := 1, iter := 1, out := [.error .notImplemented 0 1] } := by decide

/-- V90: the last byte of the stream, not truncated. -/
theorem test_accumulatorToMemory_last_byte : seen (step (decoding [0xA3] .accumulatorToMemory .strict)) =
    some ([], .failed .notImplemented 0, 0) := by decide

/-! ## The engine -/

/-- V106. -/
theorem test_classify_step : nextOf (step (waiting [0x89, 0xC3] .strict)) =
    some (decoding [0x89, 0xC3] .registerMemoryMove .strict) := by decide

/-- V3: fatal under `Recoverable` too; `iter = 1`. -/
theorem test_unknown_opcode : nextOf (step (waiting [0xFF] .recoverable)) =
    some { waiting [0xFF] .recoverable with st := .failed .unknownOpcode 0, iter := 1 } := by decide

/-- V103: `maxIterations = 0`. -/
theorem test_guard : nextOf (step { waiting [0x89, 0xD8] .strict with maxIterations := some 0 }) =
    some { waiting [0x89, 0xD8] .strict with maxIterations := some 0, st := .failed .iterationLimitExceeded 0 } := by
  decide

/-- V104: end of stream before the guard. -/
theorem test_done_before_guard : nextOf (step { waiting [] .strict with maxIterations := some 0 }) =
    some { waiting [] .strict with maxIterations := some 0, st := .done } := by decide

/-- R196. -/
theorem test_no_step_after_done : nextOf (step { waiting [] .strict with st := .done }) = none := by decide

/-- The host's placement: after it the next step runs the instruction, from reset. -/
theorem test_placed_word : seen (step (State.reset.withFetchWord 16 0x05B0)) =
    some ([some "mov al, 5"], .awaitingOpcode, 2) := by decide

/-! ## Start (V24 to V27, V50) -/

theorem test_refuses_specificFirst : failedTableChecks [⟨0x80, 0xC0, 1⟩, ⟨0x88, 0xFC, 0⟩] = [.specificFirst] := by decide

theorem test_accepts_specific_first : failedTableChecks [⟨0x88, 0xFC, 0⟩, ⟨0x80, 0xC0, 1⟩] = [] := by decide

theorem test_refuses_patternInMask : failedTableChecks [⟨0x89, 0xFC, 0⟩] = [.patternInMask] := by decide

theorem test_refuses_kindCode : failedTableChecks [⟨0x88, 0xFC, 6⟩] = [.kindCode] := by decide

/-- A catalog with one name twice. -/
def twiceNamed : Catalog := { defaultCatalog with wordNames := #v["al", "cx", "dx", "bx", "sp", "bp", "si", "di"] }

theorem test_refuses_distinctNames : distinctNamesHolds twiceNamed = false := by decide

theorem test_codes : ([Condition.unknownOpcode, .notImplemented, .unsupportedAddressingMode, .truncatedStream,
      .iterationLimitExceeded].map Condition.code, (EngineState.failed .truncatedStream 256).errorCode) =
    ([1, 2, 3, 4, 5], some (4, 256)) := by decide

/-! ## Witnesses: classifier, catalog, encoding -/

/-- AcceptedTableAnswersMoreSpecificKind: the table of V25 on byte 0x89, which both its entries match. -/
theorem witness_AcceptedTable :
    failedTableChecks (([⟨0x88, 0xFC, .registerMemoryMove⟩, ⟨0x80, 0xC0, .immediateToRegister⟩] : OpcodeTable).map
      suppliedEntry) = [] ∧
    classify [⟨0x88, 0xFC, .registerMemoryMove⟩, ⟨0x80, 0xC0, .immediateToRegister⟩] 0x89 = some .registerMemoryMove ∧
    (0x89 : Byte) &&& 0xC0 = 0x80 ∧ Kind.immediateToRegister ≠ .registerMemoryMove := by decide

/-- ExtractIsBoundedByItsMask: the largest shift. -/
theorem witness_Extract : 7 < 8 ∧ extract 0xFF 0x80 7 = 1 := by decide

/-- AcceptedCatalogHasDistinctNames, StartSetsTheState, AcceptedStartMeetsInv: an accepted start with both defaults. -/
theorem witness_start_accepted : start (input [0xB0, 0x05] .strict) = .next (input [0xB0, 0x05] .strict).initial := rfl

/-- The same with a supplied table and catalog (the clauses for `some`). -/
def suppliedInput : StartInput :=
  { input [0x89, 0xC3] .recoverable with
    table := some [⟨0x88, 0xFC, 0⟩, ⟨0x80, 0xC0, 1⟩], catalog := some defaultCatalog, maxIterations := some 1 }

theorem witness_start_supplied : suppliedInput.failedChecks = [] ∧ start suppliedInput = .next suppliedInput.initial := by
  refine ⟨by decide, rfl⟩

/-- AcceptedCatalogHasDistinctNames, second clause: two selectors with one name. -/
theorem witness_catalog_refused : (lookup twiceNamed 0 .byte).name = (lookup twiceNamed 0 .word).name ∧
    ¬((0 : BitVec 3) = 0 ∧ Width.byte = Width.word) := by decide

/-- StartRefusesByNamedCheck: a refused start in which all four checks fail; `witness_start_accepted` and
`witness_start_supplied` are the empty list. -/
theorem witness_start_refused : start { input [] .strict with
      table := some [⟨0x81, 0x80, 6⟩, ⟨0x80, 0xC0, 1⟩], catalog := some twiceNamed } =
    .refused (.startRefused [.kindCode, .patternInMask, .specificFirst, .distinctNames]) := rfl

/-- ReverseInvertsLookup. -/
theorem witness_Reverse : distinctNamesHolds defaultCatalog = true := defaultCatalog_passes

/-- DecodeInvertsEncode: the most negative byte immediate. -/
theorem witness_DecodeInvertsEncode : (Instr.immediateToRegister false 7 0xFF80).wf = true := by decide

/-- EncodeInvertsDecode. -/
theorem witness_EncodeInvertsDecode :
    decode defaultTable [0xBF, 0x80, 0xFF] = .ok (.immediateToRegister true 7 0xFF80, []) := by decide

/-- DecodeConsumesLengthOfOpcodeByte: no kind; exactly enough bytes; one byte short. -/
theorem witness_DecodeConsumes : classify defaultTable 0xFF = none ∧
    classify defaultTable 0xB8 = some .immediateToRegister ∧ (0xB8 : Byte).getLsbD 3 = true ∧
    3 ≤ ([0xB8, 0x34, 0x12] : List Byte).length ∧ ([0xB8, 0x34] : List Byte).length < 3 := by decide

/-- TruncatedImmediateEndsTheRun: `B8 34` (V84). -/
theorem witness_TruncatedImmediate :
    (decoding [0xB8, 0x34] .immediateToRegister .strict).st = .decodingOperands .immediateToRegister ∧
    (decoding [0xB8, 0x34] .immediateToRegister .strict).readByte 0 = some 0xB8 ∧
    ((decoding [0xB8, 0x34] .immediateToRegister .strict).len : Nat) < 0 + 1 + (if immWidthFlag 0xB8 then 2 else 1) := by
  decide

/-! ## Witnesses: meanings -/

/-- RegisterMemoryMoveDecodes, ArithmeticAddDecodes, DirectionFlagPicksDestination, SameRegisterInBothFields: the two bytes
end the stream. -/
theorem witness_registerForm_fits : (decoding [0x89, 0xC3] .registerMemoryMove .strict).cur + 2 =
    (decoding [0x89, 0xC3] .registerMemoryMove .strict).len := by decide

/-- MemoryModesAreUnsupported: a mode next to 11, under each policy. -/
theorem witness_MemoryModes : (decoding [0x89, 0x86] .registerMemoryMove .strict).cur + 2 ≤
      (decoding [0x89, 0x86] .registerMemoryMove .strict).len ∧ (0b10 : BitVec 2) ≠ 0b11#2 ∧
    (decoding [0x89, 0x86] .registerMemoryMove .strict).policy = .strict ∧
    (decoding [0x89, 0x86] .registerMemoryMove .recoverable).policy = .recoverable := by decide

/-- ImmediateToRegisterDecodes: three bytes end the stream, and two. -/
theorem witness_immediate_fits :
    (decoding [0xB8, 0xFF, 0x7F] .immediateToRegister .strict).cur + (if true then 3 else 2) =
      (decoding [0xB8, 0xFF, 0x7F] .immediateToRegister .strict).len ∧
    (decoding [0xB0, 0x7F] .immediateToRegister .strict).cur + (if false then 3 else 2) =
      (decoding [0xB0, 0x7F] .immediateToRegister .strict).len := by decide

/-- MissingBytesRaiseTruncatedStream: one byte short, for both clauses. -/
theorem witness_MissingBytes : ((decoding [0x89] .registerMemoryMove .strict).len : Nat) <
      (decoding [0x89] .registerMemoryMove .strict).cur + 2 ∧
    ((decoding [0xB8, 0x34] .immediateToRegister .strict).len : Nat) <
      (decoding [0xB8, 0x34] .immediateToRegister .strict).cur + (if true then 3 else 2) := by decide

/-- KindsWithoutDecodeRuleReportNotImplemented: each policy. -/
theorem witness_KindsWithoutDecodeRule : (decoding [0xA3] .accumulatorToMemory .strict).policy = .strict ∧
    (decoding [0xA3] .accumulatorToMemory .recoverable).policy = .recoverable := by decide

/-- InstructionFrame: a next state that stores a record, and one that does not. -/
theorem witness_InstructionFrame :
    (∃ t, exec (.immediateToRegister false 0 5) (decoding [0xB0, 0x05] .immediateToRegister .strict) = .next t) ∧
    ∃ t, exec (.accumulatorToMemory true) (decoding [0xA3] .accumulatorToMemory .strict) = .next t :=
  ⟨⟨_, rfl⟩, ⟨_, rfl⟩⟩

/-- RegisterRecordRecoversItsByte: `8B D8` (V9). -/
theorem witness_RegisterRecord : ∃ t, step (decoding [0x8B, 0xD8] .registerMemoryMove .strict) = .next t ∧
    (decoding [0x8B, 0xD8] .registerMemoryMove .strict).readByte 0 = some 0x8B ∧
    (decoding [0x8B, 0xD8] .registerMemoryMove .strict).readByte 1 = some 0xD8 ∧
    t.out = [] ++ [.decoded 0 2 .registerMemoryMove .mov (.reg ⟨"bx", .word, 3⟩) (.reg ⟨"ax", .word, 0⟩)] :=
  ⟨_, rfl, by decide, by decide, by decide⟩

/-! ## Witnesses: engine -/

/-- StepsRunTheDecodedInstruction and ClassificationTransition: one byte left, one classification left. -/
theorem witness_classification :
    (limited [0xA3]).st = .awaitingOpcode ∧ (limited [0xA3]).cur + 1 = ((limited [0xA3]).len : Nat) ∧
      (limited [0xA3]).maxIterations = some ((limited [0xA3]).iter + 1) ∧
      decode (limited [0xA3]).T ((limited [0xA3]).bytesAt 0) = .ok (.accumulatorToMemory true, []) ∧
      classify (limited [0xA3]).T ((limited [0xA3]).buf.read 0) = some .accumulatorToMemory := by decide

/-- ClassificationTransition, second clause. -/
theorem witness_classification_unknown : classify (waiting [0xFF] .strict).T ((waiting [0xFF] .strict).buf.read 0) = none ∧
    (waiting [0xFF] .strict).cur < (waiting [0xFF] .strict).len := by decide

/-- StepsRunTheDecodedInstruction, second clause; DispatchTakesTheKindsTransition. -/
theorem witness_dispatch : decodeOperands .immediateToRegister
      ((decoding [0xB0, 0x05] .immediateToRegister .strict).bytesAt 0) = .ok (.immediateToRegister false 0 5, []) ∧
    (decoding [0xB0, 0x05] .immediateToRegister .strict).cur <
      (decoding [0xB0, 0x05] .immediateToRegister .strict).len := by decide

/-- EndOfStreamBeforeIterationGuard: both clauses; the count at the limit. -/
theorem witness_guard : (waiting [] .strict).cur = (waiting [] .strict).len ∧
    (waiting [0x89] .strict).cur < (waiting [0x89] .strict).len ∧ 0 ≤ (waiting [0x89] .strict).iter := by decide

/-- TerminalStatesHaveNoStep. -/
theorem witness_terminal : ({ waiting [] .strict with st := .done } : State).st = .done ∧
    ({ waiting [0xFF] .strict with st := .failed .unknownOpcode 0 } : State).st = .failed .unknownOpcode 0 := by decide

/-- RaiseIsTheOnlyWayIntoFailed: the clause for `UnknownOpcode` and the clause for another condition. -/
theorem witness_raise : (∃ t, step (waiting [0xFF] .strict) = .next t ∧ t.st = .failed .unknownOpcode 0) ∧
    ∃ t, step (decoding [0xA3] .accumulatorToMemory .strict) = .next t ∧ t.st = .failed .notImplemented 0 :=
  ⟨⟨_, rfl, by decide⟩, ⟨_, rfl, by decide⟩⟩

/-- PolicyDecidesNonFatalConditions: a condition with its bytes there; a truncated fetch; the guard. -/
theorem witness_policy : conditionOf (.registerMemoryMove false true 1 0 6) = some .unsupportedAddressingMode ∧
    (decoding [0x89, 0x46] .registerMemoryMove .strict).cur + (Instr.registerMemoryMove false true 1 0 6).length =
      (decoding [0x89, 0x46] .registerMemoryMove .strict).len ∧
    decodeOperands .registerMemoryMove ((decoding [0x89] .registerMemoryMove .strict).bytesAt 0) = .error .truncated ∧
    ({ waiting [0x89] .strict with maxIterations := some 0 } : State).maxIterations = some 0 := by decide

/-- StepKeepsInputs, OutputIsAppendOnly, CursorMovesOnlyAtCompletion: a step that appends and moves, and one that does
neither. -/
theorem witness_step : (∃ t, step (decoding [0xB0, 0x05] .immediateToRegister .strict) = .next t ∧ t.cur = 2) ∧
    ∃ t, step (waiting [0xB0, 0x05] .strict) = .next t ∧ t.cur = 0 :=
  ⟨⟨_, rfl, by decide⟩, ⟨_, rfl, by decide⟩⟩

/-! ## Witnesses: invariant and runs -/

/-- The stream of V69 after its first instruction. -/
def oneDecoded (p : Policy) : State :=
  { waiting [0x89, 0xC3, 0x8B] p with
    cur := 2, iter := 1
    out := [.decoded 0 2 .registerMemoryMove .mov (.reg ⟨"bx", .word, 3⟩) (.reg ⟨"ax", .word, 0⟩)] }

/-- RecordsHaveTheirShape, IterationsAreBounded, RunStepsUnlessTerminal, StepKeepsInv, EveryRunEnds: a state in the middle of
a run, with a record. -/
theorem witness_inv_waiting (p : Policy) : RunInv (oneDecoded p) where
  buffer := by cases p <;> decide
  cursor := by cases p <;> decide
  table := by cases p <;> decide
  catalog := by cases p <;> decide
  classified := by intro k h; cases h
  finished := by intro h; cases h
  failedAt := by intro e o h; cases h
  covers := ⟨rfl, rfl⟩
  sound := by
    intro r hr
    obtain rfl := List.mem_singleton.mp hr
    exact ⟨.registerMemoryMove false true 3 0 3, [0x8B], by cases p <;> decide, by cases p <;> decide⟩
  iterations := rfl
  limit := by intro m h; cases h
  strict := by
    intro _ r hr
    obtain rfl := List.mem_singleton.mp hr
    rfl
  recoverable := by intro _ e o h; cases h

/-- The step it takes, for StepKeepsInv. -/
theorem witness_inv_step : ∃ t, step (oneDecoded .strict) = .next t := ⟨_, rfl⟩

/-- IterationsAreBounded and RunStepsUnlessTerminal, clauses for DecodingOperands: the last byte of the stream. -/
theorem witness_inv_decoding : RunInv (decoding [0xA3] .accumulatorToMemory .strict) where
  buffer := by decide
  cursor := by decide
  table := by decide
  catalog := by decide
  classified := by
    intro k h
    injection h with h
    subst h
    exact ⟨0xA3, by decide, by decide⟩
  finished := by intro h; cases h
  failedAt := by intro e o h; cases h
  covers := rfl
  sound := by intro r hr; cases hr
  iterations := rfl
  limit := by intro m h; cases h
  strict := by intro _ r hr; cases hr
  recoverable := by intro _ e o h; cases h

/-- The clauses for a failed run, the iteration limit among them (V103). -/
theorem witness_inv_failed : RunInv { waiting [0x89, 0xD8] .recoverable with
    maxIterations := some 0, st := .failed .iterationLimitExceeded 0 } where
  buffer := by decide
  cursor := by decide
  table := by decide
  catalog := by decide
  classified := by intro k h; cases h
  finished := by intro h; cases h
  failedAt := by
    intro e o h
    injection h with h1 h2
    subst h2
    decide
  covers := rfl
  sound := by intro r hr; cases hr
  iterations := rfl
  limit := by intro m _; exact Nat.zero_le m
  strict := by intro h; cases h
  recoverable := by
    intro _ e o h
    injection h with h1 h2
    subst h1
    rfl

/-- The clauses for `Done`: the empty stream. -/
theorem witness_inv_done : RunInv { waiting [] .strict with st := .done } where
  buffer := by decide
  cursor := by decide
  table := by decide
  catalog := by decide
  classified := by intro k h; cases h
  finished := fun _ => by decide
  failedAt := by intro e o h; cases h
  covers := rfl
  sound := by intro r hr; cases hr
  iterations := rfl
  limit := by intro m h; cases h
  strict := by intro _ r hr; cases hr
  recoverable := by intro _ e o h; cases h

set_option maxRecDepth 4000 in
/-- FinishedRunCoversItsStream, PolicyOfAWholeRun, FinishedRunParsedItsStream: a started run that reaches `Done` (V2). -/
theorem witness_run_done (p : Policy) : ∃ t, Reaches (input [0xB0, 0x05] p).initial t ∧ t.st = .done ∧ t.out.length = 1 := by
  refine ⟨{ (input [0xB0, 0x05] p).initial with
    st := .done, cur := 2, iter := 1
    out := [.decoded 0 2 .immediateToRegister .mov (.reg ⟨"al", .byte, 0⟩) (.imm 5)] }, ⟨3, ?_⟩, rfl, rfl⟩
  cases p <;> rfl

set_option maxRecDepth 4000 in
/-- The clauses for a failed run (V3). -/
theorem witness_run_failed (p : Policy) :
    ∃ t, Reaches (input [0xFF] p).initial t ∧ t.st = .failed .unknownOpcode 0 := by
  refine ⟨{ (input [0xFF] p).initial with st := .failed .unknownOpcode 0, iter := 1 }, ⟨1, ?_⟩, rfl⟩
  cases p <;> rfl

/-- ParsedStreamYieldsItsRecords: one instruction that decodes, and the limit reached exactly. -/
theorem witness_parsed : ParsesAs defaultTable [.immediateToRegister false 0 5] [0xB0, 0x05] ∧
    conditionOf (.immediateToRegister false 0 5) = none ∧ [Instr.immediateToRegister false 0 5].length ≤ 1 :=
  ⟨⟨[], by decide, rfl⟩, rfl, Nat.le_refl 1⟩

set_option maxRecDepth 4000 in
theorem witness_parsed_stream : (input [0xB0, 0x05] .strict).initial.streamBytes = [0xB0, 0x05] := rfl

/-- BytesPastTheLengthNeverMatter: two buffers that differ only past the length; and a rule with a byte missing. -/
theorem witness_SameStream : SameStream (waiting [0xA3] .strict)
    { waiting [0xA3] .strict with buf := Memory.ofBytes 0 [0xA3, 0x77] } where
  bytes := by
    intro a ha
    have h0 : a = 0 := by
      have : ((waiting [0xA3] .strict).len : Nat) = 1 := by decide
      omega
    subst h0
    decide
  len := rfl
  st := rfl
  cur := rfl
  iter := rfl
  out := rfl
  T := rfl
  C := rfl
  policy := rfl
  maxIterations := rfl

theorem witness_missing_byte : (decoding [0xB8, 0x34] .immediateToRegister .strict).readByte 0 = some 0xB8 ∧
    ((decoding [0xB8, 0x34] .immediateToRegister .strict).len : Nat) < 0 + Kind.immediateToRegister.length 0xB8 := by
  decide

/-- EmptyStreamIsDoneAtOnce. -/
theorem witness_empty : start (input [] .strict) = .next (input [] .strict).initial ∧ (input [] .strict).len = 0 :=
  ⟨rfl, by decide⟩

/-- CanonicalBuffersAreEqualWhenTheyReadTheSame: one buffer written in two orders. -/
theorem witness_canonical : (Memory.write (Memory.write [] 255 1) 0 2).wf = true ∧
    Memory.write (Memory.write [] 255 1) 0 2 = Memory.write (Memory.write [] 0 2) 255 1 := by decide

/-- PlacedWordRunsNext: the last cursor that leaves room. -/
theorem witness_placed : ({ State.reset with cur := 253 } : State).cur + 3 ≤ 256 ∧
    decodeTableWord 8 0x88 = some (.registerMemoryMove false false 0 0 0) := by decide

end Sys2Proof.Tests
end

/-! # Proofs: the output, and the state after a start (10_state.md §4 to §6) -/

namespace Sys2Proof.Machine

/-! ## What a transition does to the output and the cursor -/

/-- The record of an instruction stands at the offset it was read from. -/
@[simp] theorem recordOf_offset (C : Catalog) (o : Nat) (i : Instr) : (recordOf C o i).offset = o := by
  cases i with
  | registerMemoryMove d w mod reg rm | arithmeticAdd d w mod reg rm =>
    by_cases hm : mod = 0b11#2 <;> simp [recordOf, conditionOf, hm, Record.offset]
  | immediateToRegister w reg imm => rfl
  | immediateToRegisterOrMemory w | memoryToAccumulator w | accumulatorToMemory w => rfl

/-- The record of an instruction accounts for the bytes of the instruction. -/
@[simp] theorem recordOf_length (C : Catalog) (o : Nat) (i : Instr) : (recordOf C o i).length = i.length := by
  cases i with
  | registerMemoryMove d w mod reg rm | arithmeticAdd d w mod reg rm =>
    by_cases hm : mod = 0b11#2 <;> simp [recordOf, conditionOf, hm, Record.length, Instr.length]
  | immediateToRegister w reg imm => rfl
  | immediateToRegisterOrMemory w | memoryToAccumulator w | accumulatorToMemory w => rfl

/-- A transition leaves output and cursor as they are, or appends one record at the cursor and moves the cursor by the
record's length. -/
def AppendsAtCursor (s t : State) : Prop :=
  (t.out = s.out ∧ t.cur = s.cur) ∨ ∃ r, t.out = s.out ++ [r] ∧ r.offset = s.cur ∧ t.cur = s.cur + r.length

/-- Entering an error condition appends nothing. -/
theorem AppendsAtCursor.of_raise (e : Condition) (o : Nat) (s : State) : AppendsAtCursor s (raise e o s) :=
  .inl ⟨rfl, rfl⟩

theorem AppendsAtCursor.cur_le {s t : State} (h : AppendsAtCursor s t) : s.cur ≤ t.cur := by
  rcases h with ⟨-, hc⟩ | ⟨r, -, -, hc⟩ <;> omega

/-- Where no instruction can be fetched, a next state is an error condition at the cursor. -/
theorem fetchFailed_cases {e : DecodeError} {s t : State} (h : fetchFailed e s = .next t) :
    (e = .truncated ∧ t = raise .truncatedStream s.cur s) ∨
    (e = .unrecognized ∧ t = raise .unknownOpcode s.cur s) := by
  cases e with
  | emptyStream => simp [fetchFailed] at h
  | truncated => exact .inl ⟨rfl, by simpa [fetchFailed] using h.symm⟩
  | unrecognized => exact .inr ⟨rfl, by simpa [fetchFailed] using h.symm⟩

/-- The transition from `AwaitingOpcode` appends nothing and does not move the cursor. -/
theorem awaitingStep_out_cur {s t : State} (h : awaitingStep s = .next t) : t.out = s.out ∧ t.cur = s.cur := by
  rcases awaitingStep_cases h with ⟨-, rfl⟩ | ⟨-, -, rfl⟩ | ⟨-, -, rfl⟩ <;> simp

/-- Every meaning appends at most its own record (R30). -/
theorem exec_appendsAtCursor {i : Instr} {s t : State} (h : exec i s = .next t) : AppendsAtCursor s t := by
  rcases exec_cases h with ⟨-, rfl⟩ | ⟨-, e, -, -, rfl⟩ | ⟨-, -, rfl⟩
  · exact .of_raise _ _ s
  · exact .of_raise _ _ s
  · exact .inr ⟨recordOf s.C s.cur i, by simp⟩

/-- Every step appends at most one record (R30). -/
theorem step_appendsAtCursor {s t : State} (h : step s = .next t) : AppendsAtCursor s t := by
  rcases step_cases h with ⟨-, ha⟩ | ⟨k, i, rest, -, -, hx⟩ | ⟨k, e, -, -, hf⟩
  · exact .inl (awaitingStep_out_cur ha)
  · exact exec_appendsAtCursor hx
  · rcases fetchFailed_cases hf with ⟨-, rfl⟩ | ⟨-, rfl⟩ <;> exact .of_raise _ _ s

/-! ## What a start loads -/

/-- A start that begins a run has passed its checks and begins in the initial state. -/
theorem start_eq_next {h : StartInput} {s : State} : start h = .next s ↔ h.failedChecks = [] ∧ h.initial = s := by
  rcases start_cases h with ⟨hf, hs⟩ | ⟨hf, hs⟩ <;> simp [hf, hs]

/-- A check is listed exactly where it fails. -/
@[simp] theorem failedCheck_eq_nil (c : StartCheck) (holds : Bool) : failedCheck c holds = [] ↔ holds = true := by
  cases holds <;> simp [failedCheck]

/-- No check of the table fails exactly when the three of R102 hold. -/
theorem failedTableChecks_eq_nil (tb : List SuppliedEntry) :
    failedTableChecks tb = [] ↔
      kindCodeHolds tb = true ∧ patternInMaskHolds tb = true ∧ specificFirstHolds tb = true := by
  simp [failedTableChecks]

/-- A supplied table has passed its checks when the start has. -/
theorem failedTableChecks_of_failedChecks {h : StartInput} (hf : h.failedChecks = []) {tb : List SuppliedEntry}
    (ht : h.table = some tb) : failedTableChecks tb = [] := by
  simp only [StartInput.failedChecks, ht, List.append_eq_nil_iff] at hf
  exact hf.1

/-- An entry is read only from the code of its kind, so supplying it again gives the host's entry. -/
theorem suppliedEntry_of_entry {e : SuppliedEntry} {o : OpcodeEntry} (h : e.entry = some o) : suppliedEntry o = e := by
  obtain ⟨k, hk, rfl⟩ := Option.map_eq_some_iff.mp h
  simp [suppliedEntry, ← (Kind.ofCode_eq_some e.kind k).mp hk]

/-- Under `kindCode` no entry is lost: the loaded table is the supplied one, entry by entry. -/
theorem map_suppliedEntry_filterMap_entry {tb : List SuppliedEntry} (h : kindCodeHolds tb = true) :
    (tb.filterMap SuppliedEntry.entry).map suppliedEntry = tb := by
  induction tb with
  | nil => rfl
  | cons e es ih =>
    simp only [kindCodeHolds, List.all_cons, Bool.and_eq_true] at h
    obtain ⟨hk, hes⟩ := h
    obtain ⟨k, hk⟩ := Option.isSome_iff_exists.mp hk
    have he : e.entry = some ⟨e.pattern, e.mask, k⟩ := by simp [SuppliedEntry.entry, hk]
    rw [List.filterMap_cons_some he, List.map_cons, suppliedEntry_of_entry he, ih hes]

/-- Each of the 256 bytes of the buffer is the one the host placed there. -/
theorem StartInput.initial_read (h : StartInput) (i : Fin 256) : h.initial.buf.read i.val = h.buf[i.val] := by
  have hr := Memory.read_ofBytes 0 h.buf.toList (by simp [Config.bufMax]) i.val
  simpa [StartInput.initial] using hr

theorem StartInput.initial_T_of_none {h : StartInput} (ht : h.table = none) : h.initial.T = defaultTable := by
  simp [StartInput.initial, StartInput.loadedTable, ht]

theorem StartInput.initial_T_of_some {h : StartInput} (hf : h.failedChecks = []) {tb : List SuppliedEntry}
    (ht : h.table = some tb) : h.initial.T.map suppliedEntry = tb := by
  obtain ⟨hk, -, -⟩ := (failedTableChecks_eq_nil tb).mp (failedTableChecks_of_failedChecks hf ht)
  simpa [StartInput.initial, StartInput.loadedTable, ht] using map_suppliedEntry_filterMap_entry hk

/-! ## The obligations -/

/-- Settles O36: the start by its initial state, the step by the one shape of a transition. -/
theorem outputIsAppendOnly : Obligations.OutputIsAppendOnly := by
  refine ⟨fun h s hs => ?_, fun s t hst => ?_⟩
  · obtain ⟨-, rfl⟩ := start_eq_next.mp hs
    rfl
  · have happ := step_appendsAtCursor hst
    refine ⟨happ.cur_le, ?_⟩
    rcases happ with ⟨hout, -⟩ | ⟨r, hout, hoff, -⟩
    · exact .inl hout
    · exact .inr ⟨r, hout, hoff⟩

/-- Settles O38: the initial state read field by field; only the table needs the checks of the start. -/
theorem startSetsTheState : Obligations.StartSetsTheState := by
  intro h s hs
  obtain ⟨hf, rfl⟩ := start_eq_next.mp hs
  refine ⟨rfl, rfl, rfl, rfl, h.initial_read, rfl, StartInput.initial_T_of_none,
    fun tb => StartInput.initial_T_of_some hf, fun hC => ?_, fun C hC => ?_, rfl, rfl⟩
  · simp [StartInput.initial, hC]
  · simp [StartInput.initial, hC]

end Sys2Proof.Machine

/-! # Proofs: the bytes past the length (20_memory.md R52, R53)

Two runs that differ only in bytes at or above `len` are compared step by step: every operation of the machine takes
states with one stream to states with one stream. -/

namespace Sys2Proof

/-- An instruction takes the bytes its opcode byte announces off the front. -/
theorem length_of_decodeOperands {k : Kind} {b0 : Byte} {bs rest : List Byte} {i : Instr}
    (h : decodeOperands k (b0 :: bs) = .ok (i, rest)) : (b0 :: bs).length = k.length b0 + rest.length := by
  obtain ⟨_, tail, ⟨⟩, h⟩ := decodeOperands_cases h
  rcases h with ⟨rfl, b1, rfl, -⟩ | ⟨rfl, b1, rfl, -⟩ | ⟨rfl, imm, hr, -⟩ | ⟨rfl, rfl, -⟩ | ⟨rfl, rfl, -⟩ | ⟨rfl, rfl, -⟩
  case inr.inr.inl =>
    rcases readImm_cases hr with ⟨hw, lo, rfl, -⟩ | ⟨hw, lo, hi, rfl, -⟩ <;>
      simp [Kind.length, hw] <;> omega
  all_goals simp only [Kind.length, List.length_cons]; omega

/-- With its opcode byte there, an instruction can only fail to be read for a byte that is missing. -/
theorem truncated_of_decodeOperands {k : Kind} {b0 : Byte} {bs : List Byte} {e : DecodeError}
    (h : decodeOperands k (b0 :: bs) = .error e) : e = .truncated := by
  cases k with
  | registerMemoryMove | arithmeticAdd =>
    cases bs with
    | nil => cases h; rfl
    | cons b1 rest => cases h
  | immediateToRegister =>
    simp only [decodeOperands, decodeImmediateForm] at h
    split at h <;> cases h
    rfl
  | immediateToRegisterOrMemory | memoryToAccumulator | accumulatorToMemory => cases h

end Sys2Proof

namespace Sys2Proof.Machine

/-! ## No read past the length -/

/-- The bytes read from an offset on lie below the length. -/
theorem length_bytesAt_le (s : State) (o : Nat) : (s.bytesAt o).length ≤ s.len - o := by
  by_cases h : s.len ≤ o
  · simp [bytesAt_nil s o h]
  · simp only [State.bytesAt, longestInstr, List.range', State.readByte, List.filterMap]
    split_ifs <;> simp <;> omega

/-- The transition from `AwaitingOpcode` asks for a byte that is not there only with the cursor past the length. -/
theorem len_lt_cur_of_awaitingStep_fault {s : State} {f : Fault} (h : awaitingStep s = .fault f) : s.len < s.cur := by
  unfold awaitingStep at h
  split at h
  · cases h
  split at h
  · cases h
  cases hb : s.readByte s.cur with
  | none =>
    have hle : s.len ≤ s.cur := by simpa [State.readByte] using hb
    omega
  | some b0 => simp [hb] at h

/-- With the opcode byte in the stream, the step of `DecodingOperands` runs the instruction that is there, or reports
that the stream ends inside it. -/
theorem step_of_opcode_read {s : State} {k : Kind} {b0 : Byte} (hst : s.st = .decodingOperands k)
    (hb : s.readByte s.cur = some b0) :
    (s.cur + k.length b0 ≤ s.len ∧ ∃ i, step s = exec i s) ∨
    step s = .next (raise .truncatedStream s.cur s) := by
  obtain ⟨hlt, rfl⟩ := readByte_some s s.cur b0 hb
  obtain ⟨bs, hbs⟩ := bytesAt_cons s s.cur hlt
  have hle := length_bytesAt_le s s.cur
  rw [hbs] at hle
  cases hd : decodeOperands k (s.buf.read s.cur :: bs) with
  | ok p =>
    have hlen := length_of_decodeOperands (rest := p.2) hd
    exact .inl ⟨by omega, p.1, by simp [step, hst, fetchInstr, hbs, hd]⟩
  | error e =>
    obtain rfl := truncated_of_decodeOperands hd
    exact .inr (by simp [step, hst, fetchInstr, hbs, hd, fetchFailed])

/-- In a state of a run no step asks for a byte at or above the length. -/
theorem RunInv.step_ne_readPastStream {s : State} (hs : RunInv s) : step s ≠ .fault .readPastStream := by
  intro hf
  cases hst : s.st with
  | awaitingOpcode =>
    have := len_lt_cur_of_awaitingStep_fault (by simpa [step, hst] using hf)
    exact absurd hs.cursor (by omega)
  | decodingOperands k =>
    obtain ⟨b0, hb, -⟩ := hs.classified k hst
    rcases step_of_opcode_read hst hb with ⟨-, i, hi⟩ | ht
    · obtain ⟨t, ht⟩ := exec_next i s
      simp [hi, ht] at hf
    · simp [ht] at hf
  | done | failed e o => simp [step, hst] at hf

/-- A byte of the instruction at or above the length ends the run with `TruncatedStream` and changes nothing else. -/
theorem step_of_missing_byte {s : State} {k : Kind} {b0 : Byte} (hst : s.st = .decodingOperands k)
    (hb : s.readByte s.cur = some b0) (hmiss : (s.len : Nat) < s.cur + k.length b0) :
    step s = .next (raise .truncatedStream s.cur s) :=
  (step_of_opcode_read hst hb).resolve_left fun ⟨hle, _⟩ => by omega

/-! ## Two states with one stream -/

/-- Two outcomes that differ at most in bytes at or above the length: next states with one stream, or one fault. -/
inductive SameAnswer : Host.Outcome State Fault Refusal → Host.Outcome State Fault Refusal → Prop where
  | next {t t' : State} (h : SameStream t t') : SameAnswer (.next t) (.next t')
  | fault (f : Fault) : SameAnswer (.fault f) (.fault f)

section
variable {s s' : State} (h : SameStream s s')
include h

theorem SameStream.observe_eq : observe s = observe s' := by simp [observe, h.st, h.cur, h.out]

/-- `ReadByte` answers below the length only, so it does not tell the two apart. -/
theorem SameStream.readByte_eq : s.readByte = s'.readByte := by
  funext a
  by_cases ha : a < s.len
  · rw [readByte_below s a ha, readByte_below s' a (h.len ▸ ha), h.bytes a ha]
  · rw [readByte_none s a (by omega), readByte_none s' a (by rw [← h.len]; omega)]

theorem SameStream.fetchInstr_eq (k : Kind) : fetchInstr k s = fetchInstr k s' := by
  simp only [fetchInstr, State.bytesAt, h.readByte_eq, h.cur]

theorem SameStream.guardFires_eq : guardFires s = guardFires s' := by simp only [guardFires, h.maxIterations, h.iter]

theorem SameStream.setSt (st : EngineState) : SameStream { s with st := st } { s' with st := st } :=
  { h with st := rfl }

theorem SameStream.countClassification : SameStream { s with iter := s.iter + 1 } { s' with iter := s'.iter + 1 } :=
  { h with iter := congrArg (· + 1) h.iter }

theorem SameStream.raise (e : Condition) : SameStream (raise e s.cur s) (raise e s'.cur s') :=
  { h with st := congrArg (EngineState.failed e) h.cur }

theorem SameStream.complete (r : Record) (n : Nat) : SameStream (complete r n s) (complete r n s') :=
  { h with st := rfl, cur := congrArg (· + n) h.cur, out := congrArg (· ++ [r]) h.out }

theorem SameStream.nonFatal (e : NonFatal) (n : Nat) : SameStream (nonFatal e n s) (nonFatal e n s') := by
  cases hp : s'.policy with
  | strict =>
    rw [nonFatal_strict s e n (h.policy.trans hp), nonFatal_strict s' e n hp]
    exact h.raise _
  | recoverable =>
    rw [nonFatal_recoverable s e n (h.policy.trans hp), nonFatal_recoverable s' e n hp, h.cur]
    exact h.complete _ _

theorem SameStream.classifyOpcode (b0 : Byte) : SameStream (classifyOpcode b0 s) (classifyOpcode b0 s') := by
  cases hk : classify s'.T b0 with
  | none =>
    rw [classifyOpcode_none s b0 (h.T ▸ hk), classifyOpcode_none s' b0 hk]
    exact h.raise _
  | some k =>
    rw [classifyOpcode_some s b0 k (h.T ▸ hk), classifyOpcode_some s' b0 k hk]
    exact h.setSt _

theorem SameStream.sameAnswer_needBytes (n : Nat) {rest rest' : State} (hr : SameStream rest rest') :
    SameAnswer (needBytes n s rest) (needBytes n s' rest') := by
  have hfits : s.cur + n ≤ s.len ↔ s'.cur + n ≤ s'.len := by rw [h.cur, h.len]
  simp only [needBytes, hfits]
  split
  · exact .next hr
  · exact .next (h.raise _)

theorem SameStream.sameAnswer_registerForm (k : Kind) (m : Mnemonic) (d w : Bool) (mod : BitVec 2) (reg rm : BitVec 3) :
    SameAnswer (registerForm k m d w mod reg rm s) (registerForm k m d w mod reg rm s') := by
  simp only [registerForm, h.C, h.cur]
  refine h.sameAnswer_needBytes 2 ?_
  cases decodeRM s'.C mod reg rm d w with
  | none => exact h.nonFatal _ _
  | some p => exact h.complete _ _

/-- No meaning looks at the buffer: the bytes of the instruction are in its fields. -/
theorem SameStream.sameAnswer_exec (i : Instr) : SameAnswer (exec i s) (exec i s') := by
  cases i with
  | registerMemoryMove d w mod reg rm | arithmeticAdd d w mod reg rm => exact h.sameAnswer_registerForm ..
  | immediateToRegister w reg imm =>
    simp only [exec, execImmediateToRegister, h.C, h.cur]
    exact h.sameAnswer_needBytes _ (h.complete _ _)
  | immediateToRegisterOrMemory w | memoryToAccumulator w | accumulatorToMemory w => exact .next (h.nonFatal _ _)

theorem SameStream.sameAnswer_fetchFailed (e : DecodeError) : SameAnswer (fetchFailed e s) (fetchFailed e s') := by
  cases e with
  | emptyStream => exact .fault _
  | truncated | unrecognized => exact .next (h.raise _)

theorem SameStream.sameAnswer_awaitingStep : SameAnswer (awaitingStep s) (awaitingStep s') := by
  have hend : s.cur = s.len ↔ s'.cur = s'.len := by rw [h.cur, h.len]
  have hread : s.readByte s.cur = s'.readByte s'.cur := by rw [h.readByte_eq, h.cur]
  simp only [awaitingStep, hend, h.guardFires_eq, hread]
  split
  · exact .next (h.setSt _)
  split
  · exact .next (h.raise _)
  cases s'.readByte s'.cur with
  | none => exact .fault _
  | some b0 => exact .next (h.countClassification.classifyOpcode b0)

/-- Every step takes two states with one stream to two states with one stream, or to one fault. -/
theorem SameStream.sameAnswer_step : SameAnswer (step s) (step s') := by
  cases hst : s'.st with
  | awaitingOpcode =>
    simp only [step, h.st, hst]
    exact h.sameAnswer_awaitingStep
  | decodingOperands k =>
    simp only [step, h.st, hst, h.fetchInstr_eq]
    cases fetchInstr k s' with
    | ok i => exact h.sameAnswer_exec i
    | error e => exact h.sameAnswer_fetchFailed e
  | done | failed e o =>
    simp only [step, h.st, hst]
    exact .fault _

end

/-- Every number of steps does, by induction on it. -/
theorem SameStream.sameAnswer_runSteps {s s' : State} (h : SameStream s s') (n : Nat) :
    SameAnswer (runSteps n s) (runSteps n s') := by
  induction n generalizing s s' with
  | zero => exact .next h
  | succ n ih =>
    have hstep := h.sameAnswer_step
    rw [runSteps_succ, runSteps_succ]
    generalize step s = a, step s' = a' at hstep ⊢
    cases hstep with
    | next ht => exact ih ht
    | fault f => exact .fault f

theorem SameAnswer.exists_next {t : State} {a' : Host.Outcome State Fault Refusal} (h : SameAnswer (.next t) a') :
    ∃ t', a' = .next t' ∧ SameStream t t' := by
  cases h with
  | next ht => exact ⟨_, rfl, ht⟩

theorem SameAnswer.eq_fault {f : Fault} {a' : Host.Outcome State Fault Refusal} (h : SameAnswer (.fault f) a') :
    a' = .fault f := by
  cases h with
  | fault => rfl

/-! ## The obligation -/

/-- Settles O51: the invariant puts the opcode byte below the length, and a run keeps two states with one stream so. -/
theorem bytesPastTheLengthNeverMatter : Obligations.BytesPastTheLengthNeverMatter := by
  refine ⟨fun s hs => hs.step_ne_readPastStream,
    fun s k b0 hst hb hmiss => ⟨s.cur, step_of_missing_byte hst hb hmiss⟩,
    fun s s' h => ⟨fun t ht => ?_, fun f hf => ?_, fun n t ht => ?_⟩⟩
  · exact (ht ▸ h.sameAnswer_step).exists_next
  · exact (hf ▸ h.sameAnswer_step).eq_fault
  · obtain ⟨t', ht', hsame⟩ := (ht ▸ h.sameAnswer_runSteps n).exists_next
    exact ⟨t', ht', hsame.observe_eq⟩

end Sys2Proof.Machine

/-! # Encoding

What the fixed uses of the extractor are as bits of the byte (40_classifier_extractor_catalog.md R110, R112). -/

namespace Sys2Proof

/-- Where the mask is set at all `n` places from `shift` on, what is extracted is those bits of the byte. -/
theorem setWidth_extract {mask : Byte} {shift n : Nat} (hmask : ∀ i < n, mask.getLsbD (shift + i) = true) (b : Byte) :
    (extract b mask shift).setWidth n = b.extractLsb' shift n := by
  ext i hi
  have hbit : (extract b mask shift).getLsbD i = b.getLsbD (shift + i) := by simp [extract, hmask i hi]
  simpa using hbit

theorem modField_eq (b : Byte) : modField b = b.extractLsb' 6 2 := setWidth_extract (mask := 0xC0) (by decide) b

theorem regField_eq (b : Byte) : regField b = b.extractLsb' 3 3 := setWidth_extract (mask := 0x38) (by decide) b

theorem rmField_eq (b : Byte) : rmField b = b.extractLsb' 0 3 := setWidth_extract (mask := 0x07) (by decide) b

/-- Settles O4: each field's mask is set at all the places the field is read from. -/
theorem addressingModeFieldsAtTheirBits : Obligations.AddressingModeFieldsAtTheirBits :=
  fun b => ⟨modField_eq b, regField_eq b, rmField_eq b⟩

end Sys2Proof

/-! # Proofs: the classifier, the field extractor and the register catalog
(40_classifier_extractor_catalog.md R100, R111, R114, R117) -/

namespace Sys2Proof

/-! ## The classifier -/

theorem OpcodeEntry.hits_iff (e : OpcodeEntry) (b : Byte) : e.hits b = true ↔ b &&& e.mask = e.pattern := by
  simp [OpcodeEntry.hits]

/-- The classifier is the library's search for the first entry that hits. -/
theorem classify_eq_map_find? (T : OpcodeTable) (b : Byte) :
    classify T b = (T.find? (·.hits b)).map (·.kind) := by
  induction T with
  | nil => rfl
  | cons e es ih => cases he : e.hits b <;> simp [classify_cons, he, ih]

theorem classify_eq_some_iff (T : OpcodeTable) (b : Byte) (k : Kind) :
    classify T b = some k ↔
      ∃ before e after, T = before ++ e :: after ∧ b &&& e.mask = e.pattern ∧ e.kind = k ∧
        ∀ f ∈ before, b &&& f.mask ≠ f.pattern := by
  simp only [classify_eq_map_find?, Option.map_eq_some_iff, List.find?_eq_some_iff_append, Bool.not_eq_true',
    ← Bool.not_eq_true, OpcodeEntry.hits_iff]
  constructor
  · rintro ⟨e, ⟨hit, before, after, hT, miss⟩, hk⟩
    exact ⟨before, e, after, hT, hit, hk, miss⟩
  · rintro ⟨before, e, after, hT, hit, hk, miss⟩
    exact ⟨e, ⟨hit, before, after, hT, miss⟩, hk⟩

theorem classify_eq_none_iff (T : OpcodeTable) (b : Byte) :
    classify T b = none ↔ ∀ e ∈ T, b &&& e.mask ≠ e.pattern := by
  simp [classify_eq_map_find?, OpcodeEntry.hits_iff]

/-- Settles O1: the classifier is a search for the first entry that hits. -/
theorem classifyReturnsFirstMatch : Obligations.ClassifyReturnsFirstMatch :=
  ⟨fun T b => ⟨classify_eq_some_iff T b, classify_eq_none_iff T b⟩, by decide⟩

/-! ## The field extractor -/

theorem flag_iff (b mask : Byte) : flag b mask = true ↔ b &&& mask ≠ 0 := by simp [flag]

/-- Under a one-bit mask the masked byte is that mask or 0, as the bit is set or clear. -/
theorem flag_one_shiftLeft (b : Byte) (i : Fin 8) : flag b (1 <<< i.val) = b.getLsbD i.val := by
  have hmask : (1 <<< i.val : Byte) = BitVec.twoPow 8 i.val := by revert i; decide
  have hne : BitVec.twoPow 8 i.val ≠ 0 := by revert i; decide
  rw [Bool.eq_iff_iff, flag_iff, hmask, BitVec.and_twoPow]
  exact ite_ne_right_iff.trans (and_iff_left hne)

/-- Settles O6: the flag of a one-bit mask is the bit the mask selects. -/
theorem flagReadsMaskedBits : Obligations.FlagReadsMaskedBits :=
  ⟨flag_iff, flag_one_shiftLeft, by decide, by decide⟩

end Sys2Proof

namespace Sys2Proof.Machine

/-! ## The register catalog -/

theorem lookup_byte (C : Catalog) (f : BitVec 3) :
    lookup C f .byte = ⟨C.byteNames[f.toNat]'f.isLt, .byte, f⟩ := rfl

theorem lookup_word (C : Catalog) (f : BitVec 3) :
    lookup C f .word = ⟨C.wordNames[f.toNat]'f.isLt, .word, f⟩ := rfl

/-- Settles O9: a lookup at each width reads that width's names. -/
theorem lookupReadsTheCatalog : Obligations.LookupReadsTheCatalog :=
  ⟨fun C f => ⟨lookup_byte C f, lookup_word C f⟩, rfl, rfl⟩

theorem mem_selectors (p : BitVec 3 × Width) : p ∈ selectors := by
  obtain ⟨f, w⟩ := p
  cases w <;> revert f <;> decide

/-- The selectors, in their order, name the bytes of the catalog and then its words. -/
theorem map_name_selectors (C : Catalog) :
    selectors.map (fun p => (lookup C p.1 p.2).name) = C.byteNames.toList ++ C.wordNames.toList := by
  have htoList (v : Vector String 8) : v.toList = [v[0], v[1], v[2], v[3], v[4], v[5], v[6], v[7]] := by
    refine List.ext_getElem (by simp) fun i hi _ => ?_
    simp only [Vector.length_toList] at hi
    interval_cases i <;> simp
  simp [selectors, lookup, htoList]

/-- The check at start says that no two selectors bear one name. -/
theorem distinctNamesHolds_iff (C : Catalog) :
    distinctNamesHolds C = true ↔
      ∀ p q : BitVec 3 × Width, (lookup C p.1 p.2).name = (lookup C q.1 q.2).name → p = q := by
  have hnodup : selectors.Nodup := by decide
  simp [distinctNamesHolds, ← map_name_selectors, List.nodup_map_iff_inj_on hnodup, mem_selectors]

theorem lookup_name_of_reverse {C : Catalog} {n : String} {p : BitVec 3 × Width} (h : reverse C n = some p) :
    (lookup C p.1 p.2).name = n := by
  simpa using List.find?_some h

/-- Each name of the catalog has an answer: the search passes through every selector. -/
theorem exists_reverse_lookup_name (C : Catalog) (p : BitVec 3 × Width) :
    ∃ q, reverse C (lookup C p.1 p.2).name = some q :=
  Option.isSome_iff_exists.mp (List.find?_isSome.mpr ⟨p, mem_selectors p, by simp⟩)

/-- Settles O10: a search among the selectors finds one that bears the name, and distinct names leave only one. -/
theorem reverseInvertsLookup : Obligations.ReverseInvertsLookup := by
  intro C hC n f w
  refine ⟨lookup_name_of_reverse, ?_⟩
  rintro rfl
  obtain ⟨q, hq⟩ := exists_reverse_lookup_name C (f, w)
  have hqf : q = (f, w) := (distinctNamesHolds_iff C).mp hC _ _ (lookup_name_of_reverse hq)
  exact hqf ▸ hq

end Sys2Proof.Machine

/-! # Proofs: the register-form kinds (41_register_form.md R131 to R133) -/

namespace Sys2Proof.Machine

/-! ## Register form with all its bytes in the stream -/

theorem needBytes_of_le {n : Nat} {s : State} (h : s.cur + n ≤ s.len) (rest : State) :
    needBytes n s rest = .next rest := if_pos h

/-- In register mode the common rule completes the instruction with the two registers the direction flag orders. -/
theorem registerForm_of_registerMode (k : Kind) (m : Mnemonic) (d w : Bool) (reg rm : BitVec 3) {s : State}
    (h : s.cur + 2 ≤ s.len) :
    registerForm k m d w 0b11#2 reg rm s = .next (complete
      (.decoded s.cur 2 k m (registerOperands s.C d w reg rm).1 (registerOperands s.C d w reg rm).2) 2 s) := by
  rw [registerForm, needBytes_of_le h, decodeRM_eq]
  cases d <;> rfl

/-- Both register-form kinds run the common rule, each with a kind and a mnemonic of its own. -/
theorem exec_eq_registerForm {mk : Bool → Bool → BitVec 2 → BitVec 3 → BitVec 3 → Instr}
    (hmk : mk = .registerMemoryMove ∨ mk = .arithmeticAdd) :
    ∃ k m, ∀ d w mod reg rm s, exec (mk d w mod reg rm) s = registerForm k m d w mod reg rm s := by
  rcases hmk with rfl | rfl
  · exact ⟨.registerMemoryMove, .mov, fun _ _ _ _ _ _ => rfl⟩
  · exact ⟨.arithmeticAdd, .add, fun _ _ _ _ _ _ => rfl⟩

/-! ## The obligation -/

/-- Settles O20: the common rule looks up both registers whatever the direction flag is, and the flag only orders them. -/
theorem directionFlagPicksDestination : Obligations.DirectionFlagPicksDestination := by
  intro s mk w reg rm hmk hfits
  obtain ⟨k, m, hexec⟩ := exec_eq_registerForm hmk
  refine ⟨{ s with cur := s.cur + 2, st := .awaitingOpcode }, s.cur, 2, k, m, _, _, rfl, rfl, rfl, rfl, ?_, ?_⟩
  · exact (hexec ..).trans (registerForm_of_registerMode k m true w reg rm hfits)
  · exact (hexec ..).trans (registerForm_of_registerMode k m false w reg rm hfits)

end Sys2Proof.Machine

/-! # Proofs: the immediate reader (42_immediate_to_register.md R151, R152) -/

namespace Sys2Proof

/-! ## The value of an immediate -/

/-- Two's complement as R8 and R152 write it: patterns below half the range stand for themselves. -/
theorem toInt_eq_of_half {n : Nat} {half : BitVec n} (hhalf : 2 * half.toNat = 2 ^ n) (v : BitVec n) :
    v.toInt = if v < half then (v.toNat : Int) else (v.toNat : Int) - (2 ^ n : Nat) := by
  rw [BitVec.toInt_eq_toNat_cond, ← hhalf]
  simp only [BitVec.lt_def, Nat.mul_lt_mul_left Nat.two_pos]

theorem signed16_eq_toInt (v : Word) : signed16 v = v.toInt := (toInt_eq_of_half (half := 0x8000) (by decide) v).symm

/-- The sign extension of a byte denotes what the byte denotes. -/
theorem signed16_sext16 (lo : Byte) : signed16 (sext16 lo) = lo.toInt := by
  rw [signed16_eq_toInt, sext16, BitVec.toInt_signExtend_of_le (by decide)]

theorem byte_toInt_eq (lo : Byte) :
    lo.toInt = if lo < 0x80 then (lo.toNat : Int) else (lo.toNat : Int) - 0x100 :=
  toInt_eq_of_half (half := 0x80) (by decide) lo

/-- The low byte fills the places the shift leaves empty, so the OR adds. -/
theorem toNat_concatBytes (hi lo : Byte) : (concatBytes hi lo).toNat = hi.toNat * 256 + lo.toNat := by
  have happend : concatBytes hi lo = hi ++ lo := by
    simp only [concatBytes, BitVec.append_def, BitVec.shiftLeftZeroExtend_eq, BitVec.setWidth'_eq]
  rw [happend, BitVec.toNat_append, ← Nat.shiftLeft_add_eq_or_of_lt lo.isLt, Nat.shiftLeft_eq]

/-- The word's value over the natural number its two bytes make. -/
theorem signed16_concatBytes (hi lo : Byte) :
    signed16 (concatBytes hi lo) =
      if hi.toNat * 256 + lo.toNat < 0x8000 then ((hi.toNat * 256 + lo.toNat : Nat) : Int)
      else ((hi.toNat * 256 + lo.toNat : Nat) : Int) - 0x10000 := by
  simp [signed16, BitVec.lt_def, toNat_concatBytes]

/-- Settles O16: both widths are two's complement readings, whose range is the library's. -/
theorem immediateAssembly : Obligations.ImmediateAssembly := by
  intro lo hi rest
  refine ⟨⟨sext16 lo, rfl, ?_⟩, ⟨concatBytes hi lo, rfl, rfl, signed16_concatBytes hi lo, ?_⟩⟩
  · rw [signed16_sext16]
    exact ⟨byte_toInt_eq lo, lo.le_toInt, Int.le_of_lt_add_one lo.toInt_lt⟩
  · rw [signed16_eq_toInt]
    exact ⟨BitVec.le_toInt _, Int.le_of_lt_add_one BitVec.toInt_lt⟩

/-! ## A missing immediate byte -/

theorem readImm_eq_none_iff (w : Bool) (bs : List Byte) :
    readImm w bs = none ↔ bs.length < if w then 2 else 1 := by
  match w, bs with
  | false, [] | true, [] | true, [_] => simp [readImm]
  | false, _ :: _ | true, _ :: _ :: _ => simp [readImm]

end Sys2Proof

namespace Sys2Proof.Machine

theorem length_immediateToRegister (b0 : Byte) :
    Kind.immediateToRegister.length b0 = 1 + if immWidthFlag b0 then 2 else 1 := by
  cases h : immWidthFlag b0 <;> simp [Kind.length, h]

/-- Settles O17: the immediate bytes are the instruction's bytes after its opcode byte, and a missing byte of any
instruction ends the run. -/
theorem truncatedImmediateEndsTheRun : Obligations.TruncatedImmediateEndsTheRun := by
  refine ⟨readImm_eq_none_iff, fun s b0 hst hb hmiss => ⟨s.cur, step_of_missing_byte hst hb ?_⟩⟩
  rwa [length_immediateToRegister, ← Nat.add_assoc]

end Sys2Proof.Machine

/-! # Proofs: the engine's transitions (44_engine.md R192, R194) -/

namespace Sys2Proof

theorem Instr.length_pos (i : Instr) : 0 < i.length := by
  cases i with
  | immediateToRegister w reg imm => cases w <;> exact Nat.succ_pos _
  | registerMemoryMove | arithmeticAdd | immediateToRegisterOrMemory | memoryToAccumulator | accumulatorToMemory =>
    exact Nat.succ_pos _

end Sys2Proof

namespace Sys2Proof.Machine

/-! ## The classification transition -/

/-- The guard stays quiet exactly while fewer classifications than the limit have been made. -/
theorem guardFires_eq_false_iff (s : State) : guardFires s = false ↔ ∀ m, s.maxIterations = some m → s.iter < m := by
  cases h : s.maxIterations <;> simp [guardFires, h]

/-- Before the end of the stream and with the guard quiet, the step counts and classifies the byte at the cursor. -/
theorem step_eq_classifyOpcode {s : State} (hst : s.st = .awaitingOpcode) (hlt : s.cur < s.len)
    (hguard : guardFires s = false) :
    step s = .next (classifyOpcode (s.buf.read s.cur) { s with iter := s.iter + 1 }) := by
  simp [step, hst, awaitingStep, hlt.ne, hguard, readByte_below s s.cur hlt]

/-- Settles O29: the classification of the byte at the cursor by its two outcomes. -/
theorem classificationTransition : Obligations.ClassificationTransition := by
  intro s hst hlt hlimit
  rw [step_eq_classifyOpcode hst hlt ((guardFires_eq_false_iff s).mpr hlimit)]
  exact ⟨fun k hk => congrArg _ (classifyOpcode_some { s with iter := s.iter + 1 } _ k hk),
    fun hnone => congrArg _ (classifyOpcode_none { s with iter := s.iter + 1 } _ hnone)⟩

/-! ## The dispatch -/

theorem step_eq_exec {s : State} {k : Kind} {i : Instr} {rest : List Byte} (hst : s.st = .decodingOperands k)
    (hd : decodeOperands k (s.bytesAt s.cur) = .ok (i, rest)) : step s = exec i s := by
  simp [step, hst, fetchInstr, hd]

theorem step_eq_fetchFailed {s : State} {k : Kind} {e : DecodeError} (hst : s.st = .decodingOperands k)
    (hd : decodeOperands k (s.bytesAt s.cur) = .error e) : step s = fetchFailed e s := by
  simp [step, hst, fetchInstr, hd]

/-- A meaning ends waiting for the next opcode with the cursor advanced, or in an error condition. -/
theorem exec_advances_or_fails {i : Instr} {s t : State} (h : exec i s = .next t) :
    (t.st = .awaitingOpcode ∧ s.cur < t.cur) ∨ ∃ e o, t.st = .failed e o := by
  rcases exec_cases h with ⟨-, rfl⟩ | ⟨-, e, -, -, rfl⟩ | ⟨-, -, rfl⟩
  · exact .inr ⟨_, _, rfl⟩
  · exact .inr ⟨_, _, rfl⟩
  · exact .inl ⟨rfl, Nat.lt_add_of_pos_right i.length_pos⟩

/-- Settles O31: the opcode byte is in the stream, so the decoder answers an instruction of the kind or a truncation. -/
theorem dispatchTakesTheKindsTransition : Obligations.DispatchTakesTheKindsTransition := by
  intro s k hst hlt
  obtain ⟨bs, hbs⟩ := bytesAt_cons s s.cur hlt
  cases hd : decodeOperands k (s.bytesAt s.cur) with
  | ok p =>
    obtain ⟨i, rest⟩ := p
    have hstep := step_eq_exec hst hd
    obtain ⟨t, ht⟩ := exec_next i s
    exact ⟨.inl ⟨i, rest, rfl, decodeOperands_kind hd, hstep⟩, t, hstep.trans ht, exec_advances_or_fails ht⟩
  | error e =>
    obtain rfl := truncated_of_decodeOperands (hbs ▸ hd)
    have hstep := step_eq_fetchFailed hst hd
    exact ⟨.inr ⟨rfl, s.cur, hstep⟩, _, hstep, .inr ⟨_, _, rfl⟩⟩

end Sys2Proof.Machine

/-! # Proofs: error conditions and the policy (60_exceptions.md R223 to R227) -/

namespace Sys2Proof.Machine

/-! ## The way into `Failed` -/

/-- The state a condition is raised in: `UnknownOpcode` comes after the classification has counted itself (R192). -/
def countedFor (e : Condition) (s : State) : State :=
  if e = .unknownOpcode then { s with iter := s.iter + 1 } else s

theorem countedFor_unknownOpcode (s : State) : countedFor .unknownOpcode s = { s with iter := s.iter + 1 } := rfl

theorem countedFor_of_ne {e : Condition} (h : e ≠ .unknownOpcode) (s : State) : countedFor e s = s := if_neg h

/-- A transition that ends in `Failed` is a `raise` at the cursor. -/
def FailsByRaise (s t : State) : Prop :=
  ∀ e o, t.st = .failed e o → o = s.cur ∧ t = raise e o (countedFor e s)

theorem FailsByRaise.of_not_failed {s t : State} (h : ∀ e o, t.st ≠ .failed e o) : FailsByRaise s t :=
  fun e o ht => absurd ht (h e o)

theorem FailsByRaise.of_raise_countedFor (e : Condition) (s : State) :
    FailsByRaise s (raise e s.cur (countedFor e s)) := by
  intro e' o ht
  obtain ⟨rfl, rfl⟩ := EngineState.failed.inj ht
  exact ⟨rfl, rfl⟩

theorem FailsByRaise.of_raise {e : Condition} (he : e ≠ .unknownOpcode) (s : State) :
    FailsByRaise s (raise e s.cur s) := by
  simpa only [countedFor_of_ne he] using of_raise_countedFor e s

/-- The conditions the policy decides are not the classifier's. -/
theorem NonFatal.condition_ne_unknownOpcode (e : NonFatal) : e.condition ≠ .unknownOpcode := by
  cases e <;> decide

/-- A classification that has counted itself fails only for a byte without a kind. -/
theorem classifyOpcode_failsByRaise (b0 : Byte) (s : State) :
    FailsByRaise s (classifyOpcode b0 { s with iter := s.iter + 1 }) := by
  cases hk : classify s.T b0 with
  | none =>
    rw [classifyOpcode_none { s with iter := s.iter + 1 } b0 hk, ← countedFor_unknownOpcode]
    exact .of_raise_countedFor .unknownOpcode s
  | some k =>
    rw [classifyOpcode_some { s with iter := s.iter + 1 } b0 k hk]
    exact .of_not_failed nofun

theorem awaitingStep_failsByRaise {s t : State} (h : awaitingStep s = .next t) : FailsByRaise s t := by
  rcases awaitingStep_cases h with ⟨-, rfl⟩ | ⟨-, -, rfl⟩ | ⟨-, -, rfl⟩
  · exact .of_not_failed nofun
  · exact .of_raise (by decide) s
  · exact classifyOpcode_failsByRaise _ s

theorem exec_failsByRaise {i : Instr} {s t : State} (h : exec i s = .next t) : FailsByRaise s t := by
  rcases exec_cases h with ⟨-, rfl⟩ | ⟨-, e, -, -, rfl⟩ | ⟨-, -, rfl⟩
  · exact .of_raise (by decide) s
  · exact .of_raise e.condition_ne_unknownOpcode s
  · exact .of_not_failed nofun

/-- The opcode byte is not classified again, so the operands can only be missing. -/
theorem decodeOperands_ne_unrecognized (k : Kind) (bs : List Byte) :
    decodeOperands k bs ≠ .error .unrecognized := by
  intro h
  cases bs with
  | nil => cases h
  | cons b0 tail => cases truncated_of_decodeOperands h

theorem step_failsByRaise {s t : State} (h : step s = .next t) : FailsByRaise s t := by
  rcases step_cases h with ⟨-, ha⟩ | ⟨k, i, rest, -, -, hx⟩ | ⟨k, e, -, hd, hf⟩
  · exact awaitingStep_failsByRaise ha
  · exact exec_failsByRaise hx
  · rcases fetchFailed_cases hf with ⟨-, rfl⟩ | ⟨rfl, -⟩
    · exact .of_raise (by decide) s
    · exact absurd hd (decodeOperands_ne_unrecognized k _)

/-- Settles O33: each way a step can answer ends outside `Failed` or in a `raise` at the cursor. -/
theorem raiseIsTheOnlyWayIntoFailed : Obligations.RaiseIsTheOnlyWayIntoFailed := by
  refine ⟨fun _ _ _ => rfl, fun s t e o hstep hst => ?_⟩
  obtain ⟨ho, ht⟩ := step_failsByRaise hstep e o hst
  refine ⟨ho, fun he => ?_, ?_⟩
  · rwa [countedFor_of_ne he] at ht
  · rintro rfl
    exact ht

/-! ## What the policy decides -/

/-- An instruction that raises a non-fatal condition, its bytes in the stream, leaves the rest to the policy. -/
theorem exec_of_condition {i : Instr} {s : State} {e : NonFatal} (hc : conditionOf i = some e)
    (hfits : s.cur + i.length ≤ s.len) : exec i s = .next (nonFatal e i.length s) := by
  obtain ⟨t, ht⟩ := exec_next i s
  rw [ht]
  rcases exec_cases ht with ⟨hmiss, -⟩ | ⟨-, e', hc', hp, rfl⟩ | ⟨-, hp, rfl⟩
  · omega
  · obtain rfl : e = e' := Option.some.inj (hc.symm.trans hc')
    rw [nonFatal_strict s e _ hp]
  · rw [nonFatal_recoverable s e _ (hp (by simp [hc]))]
    simp [recordOf, hc]

/-- Before the end of the stream the guard ends the run, whatever the policy (R191). -/
theorem step_of_guardFires {s : State} (hst : s.st = .awaitingOpcode) (hlt : s.cur < s.len)
    (hguard : guardFires s = true) : step s = .next (raise .iterationLimitExceeded s.cur s) := by
  simp [step, hst, awaitingStep, hlt.ne, hguard]

/-- Settles O34: only `nonFatal` looks at the policy; truncation and the guard raise their conditions without it. -/
theorem policyDecidesNonFatalConditions : Obligations.PolicyDecidesNonFatalConditions := by
  refine ⟨fun i s e hc hfits => ⟨_, exec_of_condition hc hfits, fun hp => ?_, fun hp => ?_⟩,
    fun s k hst hd => ⟨_, s.cur, step_eq_fetchFailed hst hd, rfl⟩,
    fun s m hst hlt hm hle => ⟨_, s.cur, step_of_guardFires hst hlt ?_, rfl⟩⟩
  · rw [nonFatal_strict s e _ hp]
    exact ⟨s.cur, rfl⟩
  · rw [nonFatal_recoverable s e _ hp]
    exact ⟨rfl, Nat.lt_add_of_pos_right i.length_pos⟩
  · simpa [guardFires, hm] using hle

end Sys2Proof.Machine

/-! # Proofs: the encoding (30_encoding.md) -/

namespace Sys2Proof

/-! ## What the opcode byte decides -/

theorem decode_of_classify {T : OpcodeTable} {b0 : Byte} {k : Kind} (hk : classify T b0 = some k) (bs : List Byte) :
    decode T (b0 :: bs) = decodeOperands k (b0 :: bs) := by
  simp only [decode, hk]

/-- The decoder classifies the opcode byte and reads the operands of the kind, which is the instruction's. -/
theorem decode_eq_ok_iff {T : OpcodeTable} {bs rest : List Byte} {i : Instr} :
    decode T bs = .ok (i, rest) ↔
      ∃ b0 tail, bs = b0 :: tail ∧ classify T b0 = some i.kind ∧ decodeOperands i.kind bs = .ok (i, rest) := by
  constructor
  · intro h
    cases bs with
    | nil => cases h
    | cons b0 tail =>
      cases hk : classify T b0 with
      | none => simp [decode, hk] at h
      | some k =>
        rw [decode_of_classify hk] at h
        obtain rfl := decodeOperands_kind h
        exact ⟨b0, tail, rfl, hk, h⟩
  · rintro ⟨b0, tail, rfl, hk, h⟩
    rw [decode_of_classify hk, h]

/-! ## The length of an instruction -/

/-- An instruction is as long as its opcode byte says, and the bytes after it are left. -/
theorem decodeOperands_length {k : Kind} {b0 : Byte} {tail rest : List Byte} {i : Instr}
    (h : decodeOperands k (b0 :: tail) = .ok (i, rest)) :
    i.length = k.length b0 ∧ rest = (b0 :: tail).drop i.length := by
  obtain ⟨_, _, ⟨⟩, h⟩ := decodeOperands_cases h
  rcases h with ⟨rfl, b1, rfl, rfl⟩ | ⟨rfl, b1, rfl, rfl⟩ | ⟨rfl, imm, hr, rfl⟩ | ⟨rfl, rfl, rfl⟩ | ⟨rfl, rfl, rfl⟩ |
    ⟨rfl, rfl, rfl⟩
  case inr.inr.inl =>
    rcases readImm_cases hr with ⟨hw, lo, rfl, -⟩ | ⟨hw, lo, hi, rfl, -⟩ <;> simp [Instr.length, Kind.length, hw]
  all_goals exact ⟨rfl, rfl⟩

/-- Where an instruction cannot be read, the bytes are fewer than its opcode byte announces. -/
theorem length_lt_of_decodeOperands_error {k : Kind} {b0 : Byte} {tail : List Byte} {e : DecodeError}
    (h : decodeOperands k (b0 :: tail) = .error e) : (b0 :: tail).length < k.length b0 := by
  cases k with
  | registerMemoryMove | arithmeticAdd =>
    cases tail with
    | nil => exact Nat.one_lt_two
    | cons b1 rest => cases h
  | immediateToRegister =>
    cases hr : readImm (immWidthFlag b0) tail with
    | none =>
      have hshort := (readImm_eq_none_iff _ _).mp hr
      cases hw : immWidthFlag b0 <;> simp [Kind.length, hw] at hshort ⊢ <;> omega
    | some p => simp [decodeOperands, decodeImmediateForm, hr] at h
  | immediateToRegisterOrMemory | memoryToAccumulator | accumulatorToMemory => cases h

/-- With all its bytes there an instruction of the kind is read, and the bytes after it are left. -/
theorem exists_decodeOperands {k : Kind} {b0 : Byte} {tail : List Byte} (h : k.length b0 ≤ (b0 :: tail).length) :
    ∃ i, decodeOperands k (b0 :: tail) = .ok (i, (b0 :: tail).drop (k.length b0)) ∧ i.kind = k ∧
      i.length = k.length b0 := by
  cases hd : decodeOperands k (b0 :: tail) with
  | ok p =>
    obtain ⟨i, rest⟩ := p
    obtain ⟨hlen, rfl⟩ := decodeOperands_length hd
    exact ⟨i, hlen ▸ rfl, decodeOperands_kind hd, hlen⟩
  | error e => exact absurd (length_lt_of_decodeOperands_error hd) (by omega)

/-- With a byte missing the decoder reports truncation. -/
theorem decodeOperands_of_length_lt {k : Kind} {b0 : Byte} {tail : List Byte} (h : (b0 :: tail).length < k.length b0) :
    decodeOperands k (b0 :: tail) = .error .truncated := by
  cases hd : decodeOperands k (b0 :: tail) with
  | ok p => exact absurd (length_of_decodeOperands (rest := p.2) hd) (by omega)
  | error e => rw [truncated_of_decodeOperands hd]

/-! ## The fields and the bytes they make -/

theorem directionFlag_eq (b : Byte) : directionFlag b = b.getLsbD 1 := flag_one_shiftLeft b 1

theorem widthFlag_eq (b : Byte) : widthFlag b = b.getLsbD 0 := flag_one_shiftLeft b 0

theorem immWidthFlag_eq (b : Byte) : immWidthFlag b = b.getLsbD 3 := flag_one_shiftLeft b 3

theorem immRegField_eq (b : Byte) : immRegField b = b.extractLsb' 0 3 := setWidth_extract (mask := 0x07) (by decide) b

/-- The length rule with its bit written out (R82). -/
theorem Kind.length_eq (k : Kind) (b0 : Byte) :
    k.length b0 = if k = .registerMemoryMove ∨ k = .arithmeticAdd then 2
      else if k = .immediateToRegister then (if b0.getLsbD 3 then 3 else 2) else 1 := by
  cases k <;> simp [Kind.length, immWidthFlag_eq]

/-- Settles O14: the decoder reads the kind's length where the bytes are there, and reports truncation where not. -/
theorem decodeConsumesLengthOfOpcodeByte : Obligations.DecodeConsumesLengthOfOpcodeByte := by
  intro T b0 bs
  refine ⟨fun hnone => by simp only [decode, hnone], ?_⟩
  rintro k n hk rfl
  rw [← Kind.length_eq, decode_of_classify hk]
  exact ⟨exists_decodeOperands, decodeOperands_of_length_lt⟩

/-- Settles O5: the flags are one-bit masks, the field is the mask's three places. -/
theorem opcodeByteFieldsAtTheirBits : Obligations.OpcodeByteFieldsAtTheirBits :=
  fun b => ⟨directionFlag_eq b, widthFlag_eq b, immWidthFlag_eq b, immRegField_eq b⟩

@[simp] theorem directionFlag_registerFormOpcode (op : BitVec 6) (d w : Bool) :
    directionFlag (registerFormOpcode op d w) = d := by
  revert op d w; decide

@[simp] theorem widthFlag_registerFormOpcode (op : BitVec 6) (d w : Bool) :
    widthFlag (registerFormOpcode op d w) = w := by
  revert op d w; decide

@[simp] theorem widthFlag_unimplementedOpcode (op : BitVec 7) (w : Bool) :
    widthFlag (unimplementedOpcode op w) = w := by
  revert op w; decide

@[simp] theorem immWidthFlag_immediateOpcode (w : Bool) (reg : BitVec 3) :
    immWidthFlag (immediateOpcode w reg) = w := by
  revert w reg; decide

@[simp] theorem immRegField_immediateOpcode (w : Bool) (reg : BitVec 3) :
    immRegField (immediateOpcode w reg) = reg := by
  revert w reg; decide

@[simp] theorem modField_addressingModeByte (mod : BitVec 2) (reg rm : BitVec 3) :
    modField (addressingModeByte mod reg rm) = mod := by
  revert mod reg rm; decide

@[simp] theorem regField_addressingModeByte (mod : BitVec 2) (reg rm : BitVec 3) :
    regField (addressingModeByte mod reg rm) = reg := by
  revert mod reg rm; decide

@[simp] theorem rmField_addressingModeByte (mod : BitVec 2) (reg rm : BitVec 3) :
    rmField (addressingModeByte mod reg rm) = rm := by
  revert mod reg rm; decide

/-- The three fields of an addressing-mode byte are all of it. -/
@[simp] theorem addressingModeByte_fields (b1 : Byte) :
    addressingModeByte (modField b1) (regField b1) (rmField b1) = b1 := by
  revert b1; decide

/-! ## The immediate and the bytes it makes (R152) -/

@[simp] theorem setWidth_sext16 (lo : Byte) : (sext16 lo).setWidth 8 = lo := by
  revert lo; decide

@[simp] theorem setWidth_concatBytes (hi lo : Byte) : (concatBytes hi lo).setWidth 8 = lo := by
  apply BitVec.eq_of_toNat_eq
  simp [toNat_concatBytes]
  omega

@[simp] theorem setWidth_shiftRight_concatBytes (hi lo : Byte) : (concatBytes hi lo >>> 8).setWidth 8 = hi := by
  apply BitVec.eq_of_toNat_eq
  simp [toNat_concatBytes, Nat.shiftRight_eq_div_pow]
  omega

@[simp] theorem concatBytes_setWidth (v : Word) : concatBytes ((v >>> 8).setWidth 8) (v.setWidth 8) = v := by
  apply BitVec.eq_of_toNat_eq
  simp [toNat_concatBytes, Nat.shiftRight_eq_div_pow]
  omega

/-- A byte-width immediate fits exactly when it is what the reader makes of its low byte. -/
theorem immediateFits_false_iff (imm : Word) : immediateFits false imm = true ↔ sext16 (imm.setWidth 8) = imm := by
  simp [immediateFits, sext16]

/-- The reader gives an immediate that fits back from its bytes. -/
theorem readImm_byte {imm : Word} (h : immediateFits false imm = true) (rest : List Byte) :
    readImm false (imm.setWidth 8 :: rest) = some (imm, rest) := by
  rw [readImm, (immediateFits_false_iff imm).mp h]

theorem readImm_word (imm : Word) (rest : List Byte) :
    readImm true (imm.setWidth 8 :: (imm >>> 8).setWidth 8 :: rest) = some (imm, rest) := by
  rw [readImm, concatBytes_setWidth]

/-! ## Decoding an encoding -/

/-- The operands of an encoded instruction are read back, whatever the table says of its opcode byte. -/
theorem decodeOperands_encode {i : Instr} (hwf : i.wf = true) (rest : List Byte) :
    decodeOperands i.kind (encode i ++ rest) = .ok (i, rest) := by
  cases i with
  | registerMemoryMove d w mod reg rm | arithmeticAdd d w mod reg rm =>
    simp [Instr.kind, encode, decodeOperands, decodeRegisterForm]
  | immediateToRegister w reg imm =>
    cases w with
    | false => simp [Instr.kind, encode, decodeOperands, decodeImmediateForm, readImm_byte hwf]
    | true => simp [Instr.kind, encode, decodeOperands, decodeImmediateForm, readImm_word]
  | immediateToRegisterOrMemory w | memoryToAccumulator w | accumulatorToMemory w =>
    simp [Instr.kind, encode, decodeOperands]

/-- The default table classifies the first byte of every encoding to the instruction's kind. -/
theorem encode_opcode (i : Instr) : ∃ b0 tail, encode i = b0 :: tail ∧ classify defaultTable b0 = some i.kind := by
  have hkind : Laws.EncodedKind.Statement i := by
    cases i with
    | registerMemoryMove d w mod reg rm => exact Laws.EncodedKind.registerMemoryMove d w mod reg rm
    | immediateToRegister w reg imm => exact Laws.EncodedKind.immediateToRegister w reg imm
    | immediateToRegisterOrMemory w => exact Laws.EncodedKind.immediateToRegisterOrMemory w
    | memoryToAccumulator w => exact Laws.EncodedKind.memoryToAccumulator w
    | accumulatorToMemory w => exact Laws.EncodedKind.accumulatorToMemory w
    | arithmeticAdd d w mod reg rm => exact Laws.EncodedKind.arithmeticAdd d w mod reg rm
  obtain ⟨b0, hb0, hk⟩ := Option.bind_eq_some_iff.mp hkind
  obtain ⟨tail, htail⟩ := List.head?_eq_some_iff.mp hb0
  exact ⟨b0, tail, htail, hk⟩

/-- Settles O12: the first byte names the kind, and the kind's operands are read back. -/
theorem decodeInvertsEncode : Obligations.DecodeInvertsEncode := by
  intro i rest hwf
  obtain ⟨b0, tail, henc, hk⟩ := encode_opcode i
  exact decode_eq_ok_iff.mpr ⟨b0, tail ++ rest, by rw [henc, List.cons_append], hk, decodeOperands_encode hwf rest⟩

/-! ## Encoding what was decoded -/

/-- The opcode byte that `encode` makes from the fields the decoder reads in `b0` (R81). -/
def Kind.opcodeOfFields (k : Kind) (b0 : Byte) : Byte :=
  match k with
  | .registerMemoryMove => registerFormOpcode 0b100010 (directionFlag b0) (widthFlag b0)
  | .immediateToRegister => immediateOpcode (immWidthFlag b0) (immRegField b0)
  | .immediateToRegisterOrMemory => unimplementedOpcode 0b1100011 (widthFlag b0)
  | .memoryToAccumulator => unimplementedOpcode 0b1010000 (widthFlag b0)
  | .accumulatorToMemory => unimplementedOpcode 0b1010001 (widthFlag b0)
  | .arithmeticAdd => registerFormOpcode 0b000000 (directionFlag b0) (widthFlag b0)

/-- An opcode byte of the default table is its kind's fixed bits and its fields. -/
theorem Kind.opcodeOfFields_eq {k : Kind} {b0 : Byte} (h : classify defaultTable b0 = some k) :
    k.opcodeOfFields b0 = b0 := by
  revert b0; cases k <;> decide

/-- Under the default table the encoding of a decoded instruction is the bytes it was read from. -/
theorem encode_append_of_decodeOperands {k : Kind} {b0 : Byte} {tail rest : List Byte} {i : Instr}
    (hk : classify defaultTable b0 = some k) (h : decodeOperands k (b0 :: tail) = .ok (i, rest)) :
    encode i ++ rest = b0 :: tail := by
  have hop := Kind.opcodeOfFields_eq hk
  obtain ⟨_, _, ⟨⟩, h⟩ := decodeOperands_cases h
  rcases h with ⟨rfl, b1, rfl, rfl⟩ | ⟨rfl, b1, rfl, rfl⟩ | ⟨rfl, imm, hr, rfl⟩ | ⟨rfl, rfl, rfl⟩ | ⟨rfl, rfl, rfl⟩ |
    ⟨rfl, rfl, rfl⟩
  case inr.inr.inl =>
    rcases readImm_cases hr with ⟨hw, lo, rfl, rfl⟩ | ⟨hw, lo, hi, rfl, rfl⟩ <;>
      simpa [encode, Kind.opcodeOfFields, hw] using hop
  all_goals simpa [encode, Kind.opcodeOfFields] using hop

/-- Settles O13: the opcode byte of each kind is made of its fields, and so are the bytes after it. -/
theorem encodeInvertsDecode : Obligations.EncodeInvertsDecode := by
  intro bs rest i h
  obtain ⟨b0, tail, rfl, hk, hd⟩ := decode_eq_ok_iff.mp h
  exact ⟨decodeOperands_wf hd, encode_append_of_decodeOperands hk hd⟩

/-- Settles O15: the decoder run on each word. -/
theorem sampleWordsDecode : Obligations.SampleWordsDecode := by
  unfold Obligations.SampleWordsDecode
  decide

end Sys2Proof

/-! # Proofs: the meanings (41_register_form.md, 42_immediate_to_register.md, 43_unimplemented_kinds.md) -/

namespace Sys2Proof.Machine

/-! ## When a meaning completes its instruction, and when a byte is missing -/

/-- An instruction whose bytes are in the stream appends its record when it decodes or the policy skips it. -/
theorem exec_eq_complete {i : Instr} {s : State} (hc : conditionOf i = none ∨ s.policy = .recoverable)
    (hfits : s.cur + i.length ≤ s.len) : exec i s = .next (complete (recordOf s.C s.cur i) i.length s) := by
  obtain ⟨t, ht⟩ := exec_next i s
  rw [ht]
  rcases exec_cases ht with ⟨hmiss, -⟩ | ⟨-, e, he, hp, -⟩ | ⟨-, -, rfl⟩
  · omega
  · simp [he, hp] at hc
  · rfl

/-- An instruction of more than its opcode byte that does not fit in the stream is truncated. -/
theorem exec_of_not_fits {i : Instr} {s : State} (h : ¬fits i s) :
    exec i s = .next (raise .truncatedStream s.cur s) := by
  obtain ⟨t, ht⟩ := exec_next i s
  rw [ht]
  rcases exec_cases ht with ⟨-, rfl⟩ | ⟨hfits, -⟩ | ⟨hfits, -⟩
  · rfl
  · exact absurd hfits h
  · exact absurd hfits h

theorem exec_registerMemoryMove {s : State} (d w : Bool) (reg rm : BitVec 3) (h : s.cur + 2 ≤ s.len) :
    exec (.registerMemoryMove d w 0b11#2 reg rm) s = .next (complete (.decoded s.cur 2 .registerMemoryMove .mov
      (registerOperands s.C d w reg rm).1 (registerOperands s.C d w reg rm).2) 2 s) :=
  registerForm_of_registerMode _ _ d w reg rm h

theorem exec_arithmeticAdd {s : State} (d w : Bool) (reg rm : BitVec 3) (h : s.cur + 2 ≤ s.len) :
    exec (.arithmeticAdd d w 0b11#2 reg rm) s = .next (complete (.decoded s.cur 2 .arithmeticAdd .add
      (registerOperands s.C d w reg rm).1 (registerOperands s.C d w reg rm).2) 2 s) :=
  registerForm_of_registerMode _ _ d w reg rm h

/-- The operands are the registers of the two fields, in the order the direction flag gives (R131). -/
theorem registerOperands_eq (C : Catalog) (d w : Bool) (reg rm : BitVec 3) :
    registerOperands C d w reg rm =
      (.reg (lookup C (if d then reg else rm) (widthOf w)), .reg (lookup C (if d then rm else reg) (widthOf w))) := by
  cases d <;> rfl

/-! ## The obligations about one meaning -/

/-- Settles O18: register mode completes with the operands in the direction flag's order. -/
theorem registerMemoryMoveDecodes : Obligations.RegisterMemoryMoveDecodes := by
  intro s d w reg rm h
  rw [exec_registerMemoryMove d w reg rm h, registerOperands_eq]
  rfl

/-- Settles O19: as O18, with the record of `add`. -/
theorem arithmeticAddDecodes : Obligations.ArithmeticAddDecodes := by
  intro s d w reg rm h
  rw [exec_arithmeticAdd d w reg rm h, registerOperands_eq]
  rfl

/-- Settles O26: with one register in both fields the order of the operands does not show. -/
theorem sameRegisterInBothFields : Obligations.SameRegisterInBothFields := by
  intro s d w reg h
  refine ⟨_, .reg (lookup s.C reg (widthOf w)), exec_registerMemoryMove d w reg reg h, ?_, ?_,
    _, .reg (lookup s.C reg (widthOf w)), exec_arithmeticAdd d w reg reg h, ?_, ?_⟩
  · simp [exec_registerMemoryMove _ w reg reg h, registerOperands_eq]
  · simp [registerOperands_eq]
  · simp [exec_arithmeticAdd _ w reg reg h, registerOperands_eq]
  · simp [registerOperands_eq]

/-- Settles O21: the instruction raises its condition, and the policy decides what that does. -/
theorem memoryModesAreUnsupported : Obligations.MemoryModesAreUnsupported := by
  intro s i d w mod reg rm hfits hmod hi
  have hexec : exec i s = .next (nonFatal .unsupportedAddressingMode 2 s) := by
    rcases hi with rfl | rfl <;> exact exec_of_condition (by simp [conditionOf, hmod]) hfits
  rw [hexec]
  exact ⟨fun hp => congrArg _ (nonFatal_strict s _ 2 hp), fun hp => congrArg _ (nonFatal_recoverable s _ 2 hp)⟩

/-- Settles O24: the three kinds raise their condition without a look at the stream, and the policy decides. -/
theorem kindsWithoutDecodeRuleReportNotImplemented : Obligations.KindsWithoutDecodeRuleReportNotImplemented := by
  intro s w i hi
  have hexec : exec i s = .next (nonFatal .notImplemented 1 s) := by rcases hi with rfl | rfl | rfl <;> rfl
  rw [hexec]
  exact ⟨fun hp => congrArg _ (nonFatal_strict s _ 1 hp), fun hp => congrArg _ (nonFatal_recoverable s _ 1 hp)⟩

/-- Settles O22: an immediate raises no condition, so with its bytes there it completes. -/
theorem immediateToRegisterDecodes : Obligations.ImmediateToRegisterDecodes :=
  fun _ w reg imm h => exec_eq_complete (i := .immediateToRegister w reg imm) (.inl rfl) h

/-- Settles O23: the three kinds are longer than their opcode byte, so they fit only when all their bytes do. -/
theorem missingBytesRaiseTruncatedStream : Obligations.MissingBytesRaiseTruncatedStream := by
  intro s d w mod reg rm imm
  refine ⟨fun h => ⟨exec_of_not_fits ?_, exec_of_not_fits ?_⟩, fun h => exec_of_not_fits ?_⟩
  · simpa [fits, Instr.length] using h
  · simpa [fits, Instr.length] using h
  · cases w <;> simpa [fits, Instr.length] using h

/-! ## The frame -/

theorem SameInputs.refl (s : State) : SameInputs s s := ⟨rfl, rfl, rfl, rfl, rfl, rfl⟩

theorem SameInputs.trans {s t u : State} (h : SameInputs s t) (h' : SameInputs t u) : SameInputs s u :=
  ⟨h.buf.trans h'.buf, h.len.trans h'.len, h.T.trans h'.T, h.C.trans h'.C, h.policy.trans h'.policy,
    h.maxIterations.trans h'.maxIterations⟩

theorem SameInputs.of_raise (e : Condition) (o : Nat) (s : State) : SameInputs s (raise e o s) := { refl s with }

theorem SameInputs.of_complete (r : Record) (n : Nat) (s : State) : SameInputs s (complete r n s) := { refl s with }

/-- No meaning writes an input or the count. -/
theorem exec_sameInputs {i : Instr} {s t : State} (h : exec i s = .next t) : SameInputs s t ∧ t.iter = s.iter := by
  rcases exec_cases h with ⟨-, rfl⟩ | ⟨-, e, -, -, rfl⟩ | ⟨-, -, rfl⟩
  · exact ⟨.of_raise _ _ s, rfl⟩
  · exact ⟨.of_raise _ _ s, rfl⟩
  · exact ⟨.of_complete _ _ s, rfl⟩

/-- Settles O25: a meaning keeps the inputs and the count, and appends at the cursor. -/
theorem instructionFrame : Obligations.InstructionFrame := by
  intro i s t h
  obtain ⟨hsame, hiter⟩ := exec_sameInputs h
  exact ⟨hsame, fun a => by rw [hsame.buf], hiter, exec_appendsAtCursor h⟩

/-! ## From the record back to the byte -/

theorem widthOf_eq_word (w : Bool) : widthOf w = .word ↔ w = true := by cases w <;> decide

/-- The bytes at an offset begin with those `ReadByte` gives there. -/
theorem bytesAt_cons_cons {s : State} {o : Nat} {b0 b1 : Byte} (h0 : s.readByte o = some b0)
    (h1 : s.readByte (o + 1) = some b1) : ∃ bs, s.bytesAt o = b0 :: b1 :: bs := by
  simp [State.bytesAt, longestInstr, List.range', h0, h1]

/-- The record of a register-form kind: its own kind and mnemonic with the two registers in register mode, else the
error record. -/
theorem recordOf_registerForm {mk : Bool → Bool → BitVec 2 → BitVec 3 → BitVec 3 → Instr}
    (hmk : mk = .registerMemoryMove ∨ mk = .arithmeticAdd) (C : Catalog) (o : Nat) (d w : Bool) (mod : BitVec 2)
    (reg rm : BitVec 3) :
    ∃ k m, (k = .registerMemoryMove ∧ m = .mov ∨ k = .arithmeticAdd ∧ m = .add) ∧
      recordOf C o (mk d w mod reg rm) =
        if mod = 0b11#2 then
          .decoded o 2 k m (.reg (lookup C (if d then reg else rm) (widthOf w)))
            (.reg (lookup C (if d then rm else reg) (widthOf w)))
        else .error .unsupportedAddressingMode o 2 := by
  rcases hmk with rfl | rfl
  · refine ⟨_, _, .inl ⟨rfl, rfl⟩, ?_⟩
    by_cases hm : mod = 0b11#2 <;> simp [recordOf, conditionOf, hm, registerOperands_eq, Instr.length]
  · refine ⟨_, _, .inr ⟨rfl, rfl⟩, ?_⟩
    by_cases hm : mod = 0b11#2 <;> simp [recordOf, conditionOf, hm, registerOperands_eq, Instr.length]

/-- A decoded record of format RM was made in register mode, from the registers of the two fields. -/
theorem registerMode_of_recordOf {mk : Bool → Bool → BitVec 2 → BitVec 3 → BitVec 3 → Instr}
    (hmk : mk = .registerMemoryMove ∨ mk = .arithmeticAdd) {C : Catalog} {d w : Bool} {mod : BitVec 2}
    {reg rm : BitVec 3} {o o' n : Nat} {k : Kind} {m : Mnemonic} {D S : RegisterDescriptor}
    (h : recordOf C o (mk d w mod reg rm) = .decoded o' n k m (.reg D) (.reg S)) :
    mod = 0b11#2 ∧ D = lookup C (if d then reg else rm) (widthOf w) ∧
      S = lookup C (if d then rm else reg) (widthOf w) := by
  obtain ⟨k', m', -, hrecord⟩ := recordOf_registerForm hmk C o d w mod reg rm
  rw [hrecord] at h
  split at h
  · cases h
    exact ⟨‹_›, rfl, rfl⟩
  · cases h

/-- The step of a register-form kind runs the instruction its two bytes make. -/
theorem step_of_registerForm_bytes {s : State} {k : Kind} (hst : s.st = .decodingOperands k)
    (hk : k = .registerMemoryMove ∨ k = .arithmeticAdd) {b0 b1 : Byte} (h0 : s.readByte s.cur = some b0)
    (h1 : s.readByte (s.cur + 1) = some b1) :
    ∃ mk, (mk = Instr.registerMemoryMove ∨ mk = Instr.arithmeticAdd) ∧
      step s = exec (mk (directionFlag b0) (widthFlag b0) (modField b1) (regField b1) (rmField b1)) s := by
  obtain ⟨bs, hbs⟩ := bytesAt_cons_cons h0 h1
  rcases hk with rfl | rfl
  · exact ⟨_, .inl rfl, step_eq_exec (rest := bs) hst (by rw [hbs]; rfl)⟩
  · exact ⟨_, .inr rfl, step_eq_exec (rest := bs) hst (by rw [hbs]; rfl)⟩

/-- A meaning that appends a record appends the record of its instruction. -/
theorem recordOf_of_exec_appends {i : Instr} {s t : State} {r : Record} (h : exec i s = .next t)
    (hout : t.out = s.out ++ [r]) : r = recordOf s.C s.cur i := by
  rcases exec_cases h with ⟨-, rfl⟩ | ⟨-, e, -, -, rfl⟩ | ⟨-, -, rfl⟩
  · simp at hout
  · simp at hout
  · simpa using hout.symm

/-- Settles O27: the record holds `mod`, the two fields by the direction flag, and the width; the fields are the byte. -/
theorem registerRecordRecoversItsByte : Obligations.RegisterRecordRecoversItsByte := by
  intro s t b0 b1 o n k k' mnemonic D S hst hk h0 h1 hstep hout
  obtain ⟨mk, hmk, hexec⟩ := step_of_registerForm_bytes hst hk h0 h1
  have hr := recordOf_of_exec_appends (hexec.symm.trans hstep) hout
  obtain ⟨hmod, rfl, rfl⟩ := registerMode_of_recordOf hmk hr.symm
  have hb1 : b1 = 0b11#2 ++ regField b1 ++ rmField b1 := hmod ▸ (addressingModeByte_fields b1).symm
  refine ⟨?_, (widthOf_eq_word _).symm⟩
  cases hd : directionFlag b0 <;> simpa [hd, lookup] using hb1

end Sys2Proof.Machine

/-! # Proofs: what a step can do, case by case (44_engine.md R190 to R196) -/

namespace Sys2Proof

/-- No instruction is longer than three bytes (R70). -/
theorem Instr.length_le_three (i : Instr) : i.length ≤ 3 := by
  cases i with
  | immediateToRegister w reg imm => cases w <;> simp [Instr.length]
  | registerMemoryMove | arithmeticAdd | immediateToRegisterOrMemory | memoryToAccumulator | accumulatorToMemory =>
    simp [Instr.length]

end Sys2Proof

namespace Sys2Proof.Machine

/-! ## The transitions of the engine -/

/-- The transitions of the engine, each with all that is known where it is taken. -/
inductive Transition (s : State) : State → Prop where
  /-- The end of the stream (R190). -/
  | finish (hst : s.st = .awaitingOpcode) (hend : s.cur = s.len) : Transition s { s with st := .done }
  /-- The iteration guard (R191). -/
  | limit (hst : s.st = .awaitingOpcode) (hne : s.cur ≠ s.len) (hguard : guardFires s = true) :
      Transition s (raise .iterationLimitExceeded s.cur s)
  /-- The classification of a byte without a kind (R192). -/
  | unknown (hst : s.st = .awaitingOpcode) (hlt : s.cur < s.len) (hguard : guardFires s = false)
      (hk : classify s.T (s.buf.read s.cur) = none) :
      Transition s (raise .unknownOpcode s.cur { s with iter := s.iter + 1 })
  /-- The classification of a byte of kind `k` (R192). -/
  | classify (k : Kind) (hst : s.st = .awaitingOpcode) (hlt : s.cur < s.len) (hguard : guardFires s = false)
      (hk : classify s.T (s.buf.read s.cur) = some k) :
      Transition s { s with iter := s.iter + 1, st := .decodingOperands k }
  /-- The truncation of a kind's rule (R194). -/
  | truncate (k : Kind) (hst : s.st = .decodingOperands k) : Transition s (raise .truncatedStream s.cur s)
  /-- A condition of the instruction under `Strict` (60_exceptions.md R224). -/
  | refuse (i : Instr) (e : NonFatal) (hst : s.st = .decodingOperands i.kind) (hc : conditionOf i = some e)
      (hp : s.policy = .strict) : Transition s (raise e.condition s.cur s)
  /-- The completion of the instruction at the cursor, which decodes or is skipped (R194). -/
  | complete (i : Instr) (rest : List Byte) (hst : s.st = .decodingOperands i.kind)
      (hd : decodeOperands i.kind (s.bytesAt s.cur) = .ok (i, rest)) (hfits : s.cur + i.length ≤ s.len)
      (hc : conditionOf i ≠ none → s.policy = .recoverable) :
      Transition s (complete (recordOf s.C s.cur i) i.length s)

/-- An instruction read at the cursor lies below the length, and its length is that of the opcode byte there. -/
theorem fits_of_decodeOperands {k : Kind} {s : State} {i : Instr} {rest : List Byte}
    (h : decodeOperands k (s.bytesAt s.cur) = .ok (i, rest)) :
    s.cur + i.length ≤ s.len ∧ i.length = k.length (s.buf.read s.cur) := by
  by_cases hlt : s.cur < s.len
  · obtain ⟨bs, hbs⟩ := bytesAt_cons s s.cur hlt
    have hle := length_bytesAt_le s s.cur
    rw [hbs] at h hle
    have hlen := length_of_decodeOperands h
    obtain ⟨hi, -⟩ := decodeOperands_length h
    exact ⟨by omega, hi⟩
  · rw [bytesAt_nil s s.cur (by omega)] at h
    cases h

theorem awaitingStep_transition {s t : State} (hst : s.st = .awaitingOpcode) (h : awaitingStep s = .next t) :
    Transition s t := by
  rcases awaitingStep_cases h with ⟨hend, rfl⟩ | ⟨hne, hguard, rfl⟩ | ⟨hlt, hguard, rfl⟩
  · exact .finish hst hend
  · exact .limit hst hne hguard
  · cases hk : classify s.T (s.buf.read s.cur) with
    | none =>
      rw [classifyOpcode_none { s with iter := s.iter + 1 } _ hk]
      exact .unknown hst hlt hguard hk
    | some k =>
      rw [classifyOpcode_some { s with iter := s.iter + 1 } _ k hk]
      exact .classify k hst hlt hguard hk

/-- Every step is one of the transitions. -/
theorem step_transition {s t : State} (h : step s = .next t) : Transition s t := by
  rcases step_cases h with ⟨hst, ha⟩ | ⟨k, i, rest, hst, hd, hx⟩ | ⟨k, e, hst, hd, hf⟩
  · exact awaitingStep_transition hst ha
  · obtain rfl := decodeOperands_kind hd
    have hfits := (fits_of_decodeOperands hd).1
    rcases exec_cases hx with ⟨hmiss, -⟩ | ⟨-, e, hc, hp, rfl⟩ | ⟨-, hc, rfl⟩
    · omega
    · exact .refuse i e hst hc hp
    · exact .complete i rest hst hd hfits hc
  · rcases fetchFailed_cases hf with ⟨-, rfl⟩ | ⟨rfl, -⟩
    · exact .truncate k hst
    · exact absurd hd (decodeOperands_ne_unrecognized k _)

/-! ## The steps from each engine state -/

theorem step_of_end {s : State} (hst : s.st = .awaitingOpcode) (hend : s.cur = s.len) :
    step s = .next { s with st := .done } := by
  simp [step, hst, awaitingStep, hend]

theorem step_of_terminal {s : State} (h : s.st.terminal = true) : step s = .fault .noStep := by
  cases hst : s.st with
  | awaitingOpcode | decodingOperands k => simp [hst, EngineState.terminal] at h
  | done | failed e o => simp [step, hst]

/-- Where the bytes at the cursor decode, the opcode byte is below the length and of the instruction's kind. -/
theorem opcode_of_decode {s : State} {i : Instr} {rest : List Byte}
    (hd : decode s.T (s.bytesAt s.cur) = .ok (i, rest)) :
    s.cur < s.len ∧ classify s.T (s.buf.read s.cur) = some i.kind ∧
      decodeOperands i.kind (s.bytesAt s.cur) = .ok (i, rest) := by
  obtain ⟨b0, tail, hbs, hk, hops⟩ := decode_eq_ok_iff.mp hd
  have hlt : s.cur < s.len := by
    have hfits := (fits_of_decodeOperands hops).1
    have hpos := i.length_pos
    omega
  obtain ⟨bs, hcons⟩ := bytesAt_cons s s.cur hlt
  obtain ⟨rfl, -⟩ := List.cons.inj (hbs.symm.trans hcons)
  exact ⟨hlt, hk, hops⟩

/-- From an instruction at the cursor that can be read, one transition classifies it and the next runs it. -/
theorem step_of_decode {s : State} {i : Instr} {rest : List Byte} (hst : s.st = .awaitingOpcode)
    (hguard : guardFires s = false) (hd : decode s.T (s.bytesAt s.cur) = .ok (i, rest)) :
    step s = .next { s with iter := s.iter + 1, st := .decodingOperands i.kind } ∧
      step { s with iter := s.iter + 1, st := .decodingOperands i.kind } =
        exec i { s with iter := s.iter + 1, st := .decodingOperands i.kind } := by
  obtain ⟨hlt, hk, hops⟩ := opcode_of_decode hd
  refine ⟨?_, step_eq_exec rfl hops⟩
  rw [step_eq_classifyOpcode hst hlt hguard, classifyOpcode_some { s with iter := s.iter + 1 } _ i.kind hk]

/-! ## The obligations about one step -/

/-- Settles O28: the classification finds the kind the decoder found, and the operands are read at the same cursor. -/
theorem stepsRunTheDecodedInstruction : Obligations.StepsRunTheDecodedInstruction := by
  refine ⟨fun s i rest hst _ hlimit hd => ?_, fun s k i rest hst hd => step_eq_exec hst hd⟩
  exact ⟨_, rfl, step_of_decode hst ((guardFires_eq_false_iff s).mpr hlimit) hd⟩

/-- Settles O30: the end is tested first; a byte short of it the guard is asked. -/
theorem endOfStreamBeforeIterationGuard : Obligations.EndOfStreamBeforeIterationGuard :=
  fun _ hst => ⟨step_of_end hst,
    fun hlt m hm hle => step_of_guardFires hst hlt (by simpa [guardFires, hm] using hle)⟩

/-- Settles O32: both are the terminal states. -/
theorem terminalStatesHaveNoStep : Obligations.TerminalStatesHaveNoStep := by
  rintro s (hst | ⟨e, o, hst⟩) <;> exact step_of_terminal (by rw [hst]; rfl)

/-- Settles O52: a start stands at 0, the end of the empty stream. -/
theorem emptyStreamIsDoneAtOnce : Obligations.EmptyStreamIsDoneAtOnce := by
  intro h s hs hlen
  obtain ⟨-, rfl⟩ := start_eq_next.mp hs
  refine ⟨step_of_end rfl ?_, rfl, rfl, rfl⟩
  simp [StartInput.initial, hlen]

theorem Transition.sameInputs {s t : State} (h : Transition s t) : SameInputs s t := by
  cases h with
  | finish | classify => exact { SameInputs.refl s with }
  | limit | truncate | refuse => exact .of_raise _ _ s
  | unknown => exact { SameInputs.refl s with }
  | complete => exact .of_complete _ _ s

/-- Settles O35: no transition writes an input. -/
theorem stepKeepsInputs : Obligations.StepKeepsInputs := fun _ _ h => (step_transition h).sameInputs

/-- Settles O37: only the completion moves the cursor, by the length that the opcode byte gives. -/
theorem cursorMovesOnlyAtCompletion : Obligations.CursorMovesOnlyAtCompletion := by
  intro s t h
  cases step_transition h with
  | finish | limit | unknown | classify | truncate | refuse => exact .inl ⟨rfl, rfl⟩
  | complete i rest hst hd hfits hc =>
    obtain ⟨-, hlen⟩ := fits_of_decodeOperands hd
    have hpos := i.length_pos
    have hle := i.length_le_three
    refine .inr ⟨i.kind, s.buf.read s.cur, recordOf s.C s.cur i, hst, readByte_below s _ (by omega), rfl, rfl, ?_⟩
    rw [← hlen, recordOf_length]
    exact ⟨rfl, rfl, hpos, hle⟩

end Sys2Proof.Machine

/-! # Proofs: the invariant of a run (44_engine.md section 2) -/

namespace Sys2Proof.Machine

/-! ## Rows of records -/

/-- A record that stands where the row ends makes the row longer by its bytes. -/
theorem CoversFrom.append {o e : Nat} {rs : List Record} (h : CoversFrom o rs e) {r : Record} (hr : r.offset = e) :
    CoversFrom o (rs ++ [r]) (e + r.length) := by
  induction rs generalizing o with
  | nil =>
    obtain rfl : o = e := h
    exact ⟨hr, rfl⟩
  | cons r' rs ih => exact ⟨h.1, ih h.2⟩

theorem CoversFrom.start_le {o e : Nat} {rs : List Record} (h : CoversFrom o rs e) : o ≤ e := by
  induction rs generalizing o with
  | nil => exact Nat.le_of_eq h
  | cons r rs ih => exact (Nat.le_add_right _ _).trans (ih h.2)

theorem CoversFrom.end_le {o e : Nat} {rs : List Record} (h : CoversFrom o rs e) {r : Record} (hr : r ∈ rs) :
    r.offset + r.length ≤ e := by
  induction rs generalizing o with
  | nil => cases hr
  | cons r' rs ih =>
    rcases List.mem_cons.mp hr with rfl | hr
    · exact h.1 ▸ h.2.start_le
    · exact ih h.2 hr

/-- Records of at least a byte each are no more than the bytes they cover. -/
theorem CoversFrom.length_le {o e : Nat} {rs : List Record} (h : CoversFrom o rs e) (hpos : ∀ r ∈ rs, 0 < r.length) :
    o + rs.length ≤ e := by
  induction rs generalizing o with
  | nil => exact Nat.le_of_eq h
  | cons r rs ih =>
    have hr := hpos r List.mem_cons_self
    have hrs := ih h.2 fun r' hr' => hpos r' (List.mem_cons_of_mem r hr')
    rw [List.length_cons]
    omega

/-- An instruction has a `Decoded` record exactly when it raises no condition. -/
theorem isDecoded_recordOf (C : Catalog) (o : Nat) (i : Instr) :
    (recordOf C o i).isDecoded = true ↔ conditionOf i = none := by
  cases i with
  | registerMemoryMove d w mod reg rm | arithmeticAdd d w mod reg rm =>
    by_cases hm : mod = 0b11#2 <;> simp [recordOf, conditionOf, hm, Record.isDecoded]
  | immediateToRegister w reg imm => exact iff_of_true rfl rfl
  | immediateToRegisterOrMemory w | memoryToAccumulator w | accumulatorToMemory w => exact iff_of_false nofun nofun

/-! ## The invariant at the start -/

/-- A state that has run nothing meets the invariant when what the host supplies is right. -/
theorem RunInv.of_fresh {s : State} (hst : s.st = .awaitingOpcode) (hcur : s.cur = 0) (hiter : s.iter = 0)
    (hout : s.out = []) (hbuf : s.buf.wf = true) (hT : failedTableChecks (s.T.map suppliedEntry) = [])
    (hC : distinctNamesHolds s.C = true) : RunInv s where
  buffer := hbuf
  cursor := by omega
  table := hT
  catalog := hC
  classified k h := by simp [hst] at h
  finished h := by simp [hst] at h
  failedAt e o h := by simp [hst] at h
  covers := by rw [hout, hcur]; rfl
  sound r hr := by simp [hout] at hr
  iterations := by rw [hiter, hout, hst]; rfl
  limit m _ := by omega
  strict _ r hr := by simp [hout] at hr
  recoverable _ e o h := by simp [hst] at h

/-- Settles O40: the reset has run nothing and holds the defaults. -/
theorem resetMeetsInv : Obligations.ResetMeetsInv :=
  .of_fresh rfl rfl rfl rfl rfl defaultTable_passes defaultCatalog_passes

/-- An accepted start loads a table that passes the checks. -/
theorem StartInput.initial_T_passes {h : StartInput} (hf : h.failedChecks = []) :
    failedTableChecks (h.initial.T.map suppliedEntry) = [] := by
  cases ht : h.table with
  | none => rw [StartInput.initial_T_of_none ht, defaultTable_passes]
  | some tb => rw [StartInput.initial_T_of_some hf ht, failedTableChecks_of_failedChecks hf ht]

/-- An accepted start loads a catalog that passes the check. -/
theorem StartInput.initial_C_passes {h : StartInput} (hf : h.failedChecks = []) :
    distinctNamesHolds h.initial.C = true := by
  cases hC : h.catalog with
  | none => simpa [StartInput.initial, hC] using defaultCatalog_passes
  | some C => simpa [StartInput.failedChecks, StartInput.initial, hC] using (List.append_eq_nil_iff.mp hf).2

theorem StartInput.initial_buf_wf (h : StartInput) : h.initial.buf.wf = true :=
  Memory.wfFrom_ofBytes 0 h.buf.toList (by simp [Config.bufMax])

/-- Settles O41: a start has run nothing, and its checks are those of the invariant. -/
theorem acceptedStartMeetsInv : Obligations.AcceptedStartMeetsInv := by
  intro h s hs
  obtain ⟨hf, rfl⟩ := start_eq_next.mp hs
  exact .of_fresh rfl rfl rfl rfl h.initial_buf_wf (StartInput.initial_T_passes hf) (StartInput.initial_C_passes hf)

/-! ## The invariant along a step -/

namespace RunInv

variable {s : State} (hs : RunInv s)
include hs

/-- A new engine state and count keep the invariant when what it says of these two holds. -/
theorem setEngine {st : EngineState} {n : Nat}
    (hclass : ∀ k, st = .decodingOperands k → ∃ b0, s.readByte s.cur = some b0 ∧ classify s.T b0 = some k)
    (hdone : st = .done → s.cur = s.len)
    (hfail : ∀ e o, st = .failed e o → o = s.cur ∧ s.cur < s.len ∧ (s.policy = .recoverable → e.alwaysFatal = true))
    (hiter : n = s.out.length + st.pending) (hlimit : ∀ m, s.maxIterations = some m → n ≤ m) :
    RunInv { s with st := st, iter := n } :=
  { hs with
    classified := hclass
    finished := hdone
    failedAt := fun e o h => ⟨(hfail e o h).1, (hfail e o h).2.1⟩
    iterations := hiter
    limit := hlimit
    recoverable := fun hp e o h => (hfail e o h).2.2 hp }

/-- An error condition at the cursor keeps the invariant when its count and its policy are right. -/
theorem raise {e : Condition} {n : Nat} (hlt : s.cur < s.len) (hpolicy : s.policy = .recoverable → e.alwaysFatal = true)
    (hiter : n = s.out.length + (EngineState.failed e s.cur).pending) (hlimit : ∀ m, s.maxIterations = some m → n ≤ m) :
    RunInv (raise e s.cur { s with iter := n }) :=
  hs.setEngine nofun nofun (fun _ _ h => by cases h; exact ⟨rfl, hlt, hpolicy⟩) hiter hlimit

theorem iter_of_awaiting (hst : s.st = .awaitingOpcode) : s.iter = s.out.length := by
  have := hs.iterations
  rwa [hst] at this

theorem iter_of_decoding {k : Kind} (hst : s.st = .decodingOperands k) : s.iter = s.out.length + 1 := by
  have := hs.iterations
  rwa [hst] at this

theorem cur_lt_of_decoding {k : Kind} (hst : s.st = .decodingOperands k) : s.cur < s.len := by
  obtain ⟨b0, hb, -⟩ := hs.classified k hst
  exact (readByte_some s s.cur b0 hb).1

/-- The instruction read at the cursor is the one the decoder gives there. -/
theorem decode_of_decoding {i : Instr} {rest : List Byte} (hst : s.st = .decodingOperands i.kind)
    (hd : decodeOperands i.kind (s.bytesAt s.cur) = .ok (i, rest)) : decode s.T (s.bytesAt s.cur) = .ok (i, rest) := by
  obtain ⟨b0, hb, hk⟩ := hs.classified i.kind hst
  obtain ⟨hlt, rfl⟩ := readByte_some s s.cur b0 hb
  obtain ⟨bs, hbs⟩ := bytesAt_cons s s.cur hlt
  exact decode_eq_ok_iff.mpr ⟨_, bs, hbs, hk, hd⟩

/-- The completion of the instruction at the cursor keeps the invariant. -/
theorem complete {i : Instr} {rest : List Byte} (hst : s.st = .decodingOperands i.kind)
    (hd : decodeOperands i.kind (s.bytesAt s.cur) = .ok (i, rest)) (hfits : s.cur + i.length ≤ s.len)
    (hc : conditionOf i ≠ none → s.policy = .recoverable) :
    RunInv (complete (recordOf s.C s.cur i) i.length s) :=
  { hs with
    cursor := hfits
    classified := nofun
    finished := nofun
    failedAt := nofun
    covers := by simpa using hs.covers.append (recordOf_offset s.C s.cur i)
    sound := by
      intro r hr
      rcases List.mem_append.mp hr with hr | hr
      · exact hs.sound r hr
      · obtain rfl := List.mem_singleton.mp hr
        rw [recordOf_offset]
        exact ⟨i, rest, hs.decode_of_decoding hst hd, rfl⟩
    iterations := by simpa [EngineState.pending] using hs.iter_of_decoding hst
    strict := by
      intro hp r hr
      rcases List.mem_append.mp hr with hr | hr
      · exact hs.strict hp r hr
      · obtain rfl := List.mem_singleton.mp hr
        have hnone : conditionOf i = none := by_contra fun h => by simp [hc h] at hp
        exact (isDecoded_recordOf s.C s.cur i).mpr hnone
    recoverable := nofun }

theorem of_transition {t : State} (h : Transition s t) : RunInv t := by
  cases h with
  | finish hst hend => exact hs.setEngine nofun (fun _ => hend) nofun (hs.iter_of_awaiting hst) hs.limit
  | limit hst hne hguard =>
    exact hs.raise (lt_of_le_of_ne hs.cursor hne) (fun _ => rfl) (hs.iter_of_awaiting hst) hs.limit
  | unknown hst hlt hguard hk =>
    exact hs.raise hlt (fun _ => rfl) (congrArg (· + 1) (hs.iter_of_awaiting hst))
      ((guardFires_eq_false_iff s).mp hguard)
  | classify k hst hlt hguard hk =>
    refine hs.setEngine (fun k' h => ?_) nofun nofun (congrArg (· + 1) (hs.iter_of_awaiting hst))
      ((guardFires_eq_false_iff s).mp hguard)
    cases h
    exact ⟨_, readByte_below s _ hlt, hk⟩
  | truncate k hst => exact hs.raise (hs.cur_lt_of_decoding hst) (fun _ => rfl) (hs.iter_of_decoding hst) hs.limit
  | refuse i e hst hc hp =>
    refine hs.raise (hs.cur_lt_of_decoding hst) (by simp [hp]) ?_ hs.limit
    rw [hs.iter_of_decoding hst]
    cases e <;> rfl
  | complete i rest hst hd hfits hc => exact hs.complete hst hd hfits hc

end RunInv

/-- Settles O42: every transition keeps the invariant. -/
theorem stepKeepsInv : Obligations.StepKeepsInv := fun _ _ hs h => hs.of_transition (step_transition h)

end Sys2Proof.Machine

/-! # Proofs: runs (44_engine.md section 2) -/

namespace Sys2Proof.Machine

/-! ## Termination -/

/-- A state of a run that is not terminal has a next state. -/
theorem RunInv.step_next {s : State} (hs : RunInv s) (h : s.st.terminal = false) : ∃ t, step s = .next t := by
  cases hst : s.st with
  | awaitingOpcode =>
    rcases hs.cursor.eq_or_lt with hend | hlt
    · exact ⟨_, step_of_end hst hend⟩
    · cases hguard : guardFires s with
      | true => exact ⟨_, step_of_guardFires hst hlt hguard⟩
      | false => exact ⟨_, step_eq_classifyOpcode hst hlt hguard⟩
  | decodingOperands k =>
    obtain ⟨b0, hb, -⟩ := hs.classified k hst
    rcases step_of_opcode_read hst hb with ⟨-, i, hi⟩ | ht
    · rw [hi]
      exact exec_next i s
    · exact ⟨_, ht⟩
  | done | failed e o => simp [hst, EngineState.terminal] at h

/-- Settles O43: each state that is not terminal has its transition, and the others the fault. -/
theorem runStepsUnlessTerminal : Obligations.RunStepsUnlessTerminal :=
  fun _ hs => ⟨hs.step_next, step_of_terminal⟩

/-- The steps a state can still take: two for each byte left, and the one that ends the run. -/
def State.stepsLeft (s : State) : Nat :=
  match s.st with
  | .awaitingOpcode => 2 * (s.len - s.cur) + 1
  | .decodingOperands _ => 2 * (s.len - s.cur)
  | .done => 0
  | .failed _ _ => 0

theorem State.stepsLeft_le (s : State) : s.stepsLeft ≤ 2 * (s.len - s.cur) + 1 := by
  unfold State.stepsLeft
  split <;> omega

/-- Every step of a run leaves fewer steps: a classification by the engine state, a completion by the cursor. -/
theorem RunInv.stepsLeft_lt {s t : State} (hs : RunInv s) (h : Transition s t) : t.stepsLeft < s.stepsLeft := by
  cases h with
  | finish hst | limit hst | unknown hst | classify k hst => simp [State.stepsLeft, hst]
  | truncate k hst | refuse i e hst =>
    have hlt := hs.cur_lt_of_decoding hst
    simp only [State.stepsLeft, raise_st, hst]
    omega
  | complete i rest hst hd hfits hc =>
    have hpos := i.length_pos
    simp only [State.stepsLeft, complete_st, complete_cur, complete_len, hst]
    omega

/-- A run reaches a terminal state within the steps left, by induction on their number. -/
theorem RunInv.reaches_terminal {n : Nat} {s : State} (hs : RunInv s) (hn : s.stepsLeft ≤ n) :
    ∃ k t, k ≤ n ∧ runSteps k s = .next t ∧ t.st.terminal = true := by
  induction n generalizing s with
  | zero =>
    refine ⟨0, s, Nat.le_refl 0, rfl, by_contra fun h => ?_⟩
    obtain ⟨t, ht⟩ := hs.step_next (Bool.eq_false_iff.mpr h)
    have := hs.stepsLeft_lt (step_transition ht)
    omega
  | succ n ih =>
    cases hterm : s.st.terminal with
    | true => exact ⟨0, s, Nat.zero_le _, rfl, hterm⟩
    | false =>
      obtain ⟨s', hstep⟩ := hs.step_next hterm
      have hlt := hs.stepsLeft_lt (step_transition hstep)
      obtain ⟨k, t, hk, hrun, ht⟩ := ih (hs.of_transition (step_transition hstep)) (by omega)
      exact ⟨k + 1, t, Nat.succ_le_succ hk, (runSteps_succ_next hstep k).trans hrun, ht⟩

/-- Settles O46: the steps left bound the run, and the bytes left bound the steps. -/
theorem everyRunEnds : Obligations.EveryRunEnds := fun s hs => hs.reaches_terminal s.stepsLeft_le

/-! ## What the invariant says of a state -/

namespace RunInv

variable {s : State} (hs : RunInv s)
include hs

/-- Every record is that of a well-formed instruction. -/
theorem record_eq {r : Record} (hr : r ∈ s.out) : ∃ i : Instr, i.wf = true ∧ r = recordOf s.C r.offset i := by
  obtain ⟨i, rest, hd, h⟩ := hs.sound r hr
  obtain ⟨b0, tail, -, -, hops⟩ := decode_eq_ok_iff.mp hd
  exact ⟨i, decodeOperands_wf hops, h⟩

/-- Each record takes a byte at least, so they are no more than the bytes before the cursor. -/
theorem length_out_le : s.out.length ≤ s.cur := by
  have h := hs.covers.length_le fun r hr => by
    obtain ⟨i, -, hi⟩ := hs.record_eq hr
    rw [hi, recordOf_length]
    exact i.length_pos
  omega

end RunInv

/-- Only one classification can be without its record, and none for the guard. -/
theorem EngineState.pending_failed (e : Condition) (o : Nat) :
    (EngineState.failed e o).pending = if e = .iterationLimitExceeded then 0 else 1 := by
  cases e <;> rfl

/-- Settles O44: the count is that of the records and the pending one, and the records are no more than the cursor. -/
theorem iterationsAreBounded : Obligations.IterationsAreBounded := by
  intro s hs
  have hiter := hs.iterations
  have hout := hs.length_out_le
  have hcur := hs.cursor
  cases hst : s.st with
  | awaitingOpcode | done =>
    simp only [hst, EngineState.pending] at hiter
    refine ⟨?_, fun _ => ?_, nofun, nofun, fun _ => ?_, nofun⟩ <;> omega
  | decodingOperands k =>
    have hlt := hs.cur_lt_of_decoding hst
    simp only [hst, EngineState.pending] at hiter
    refine ⟨?_, nofun, fun _ _ => ⟨?_, hlt⟩, nofun, nofun, nofun⟩ <;> omega
  | failed e o =>
    obtain ⟨-, hlt⟩ := hs.failedAt e o hst
    rw [hst, EngineState.pending_failed] at hiter
    refine ⟨?_, nofun, nofun, ?_, nofun, ?_⟩
    · split at hiter <;> omega
    · rintro _ _ ⟨⟩
      refine ⟨hlt, ?_, ?_⟩
      · split at hiter <;> omega
      · rintro rfl
        rw [if_pos rfl] at hiter
        omega
    · rintro _ _ ⟨⟩
      exact hiter

/-- The immediate of a well-formed byte-width instruction is a byte's integer. -/
theorem signed16_bounds_of_fits {imm : Word} (h : immediateFits false imm = true) :
    -128 ≤ signed16 imm ∧ signed16 imm ≤ 127 := by
  rw [← (immediateFits_false_iff imm).mp h, signed16_sext16]
  exact ⟨BitVec.le_toInt _, Int.le_of_lt_add_one BitVec.toInt_lt⟩

theorem signed16_bounds (imm : Word) : -32768 ≤ signed16 imm ∧ signed16 imm ≤ 32767 := by
  rw [signed16_eq_toInt]
  exact ⟨BitVec.le_toInt _, Int.le_of_lt_add_one BitVec.toInt_lt⟩

/-- Settles O45: every record is one of an instruction, so its shape is the instruction's. -/
theorem recordsHaveTheirShape : Obligations.RecordsHaveTheirShape := by
  intro s hs r hr
  refine ⟨hs.covers.end_le hr, ?_⟩
  obtain ⟨i, hwf, hi⟩ := hs.record_eq hr
  rw [hi]
  cases i with
  | registerMemoryMove d w mod reg rm =>
    obtain ⟨k, m, hkm, hrecord⟩ := recordOf_registerForm (.inl rfl) s.C r.offset d w mod reg rm
    rw [hrecord]
    split
    · exact .inl ⟨r.offset, k, m, _, _, _, hkm, rfl⟩
    · exact .inr (.inr (.inr (.inr ⟨r.offset, rfl⟩)))
  | arithmeticAdd d w mod reg rm =>
    obtain ⟨k, m, hkm, hrecord⟩ := recordOf_registerForm (.inr rfl) s.C r.offset d w mod reg rm
    rw [hrecord]
    split
    · exact .inl ⟨r.offset, k, m, _, _, _, hkm, rfl⟩
    · exact .inr (.inr (.inr (.inr ⟨r.offset, rfl⟩)))
  | immediateToRegister w reg imm =>
    cases w with
    | false => exact .inr (.inl ⟨r.offset, reg, signed16 imm, rfl, signed16_bounds_of_fits hwf⟩)
    | true => exact .inr (.inr (.inl ⟨r.offset, reg, signed16 imm, rfl, signed16_bounds imm⟩))
  | immediateToRegisterOrMemory w | memoryToAccumulator w | accumulatorToMemory w =>
    exact .inr (.inr (.inr (.inl ⟨r.offset, rfl⟩)))

/-! ## Runs from an accepted start -/

/-- Every state of a run from an accepted start meets the invariant and holds the host's inputs. -/
theorem Reaches.runInv_sameInputs {h : StartInput} {s t : State} (hs : start h = .next s) (hr : Reaches s t) :
    RunInv t ∧ SameInputs s t := by
  obtain ⟨k, hk⟩ := hr
  refine runSteps_keeps (P := fun u => RunInv u ∧ SameInputs s u) (fun u v ⟨hu, hsame⟩ hstep => ?_)
    ⟨acceptedStartMeetsInv h s hs, .refl s⟩ hk
  exact ⟨stepKeepsInv u v hu hstep, hsame.trans (stepKeepsInputs u v hstep)⟩

/-- Settles O47: the invariant's records end at the cursor, which is the length in `Done` and the offset in `Failed`. -/
theorem finishedRunCoversItsStream : Obligations.FinishedRunCoversItsStream := by
  intro h s t hs hr
  obtain ⟨ht, hsame⟩ := hr.runInv_sameInputs hs
  have hlen : h.len = t.len := by
    obtain ⟨-, rfl⟩ := start_eq_next.mp hs
    exact hsame.len
  refine ⟨fun hdone => ?_, fun e o hfail => ?_⟩
  · rw [hlen, ← ht.finished hdone]
    exact ht.covers
  · obtain ⟨rfl, hlt⟩ := ht.failedAt e o hfail
    exact ⟨ht.covers, hlen ▸ hlt⟩

theorem Condition.alwaysFatal_iff (e : Condition) :
    e.alwaysFatal = true ↔ e = .unknownOpcode ∨ e = .truncatedStream ∨ e = .iterationLimitExceeded := by
  cases e <;> decide

/-- Settles O48: the invariant's promises under the policy of the start. -/
theorem policyOfAWholeRun : Obligations.PolicyOfAWholeRun := by
  intro h s t hs hr
  obtain ⟨ht, hsame⟩ := hr.runInv_sameInputs hs
  have hpolicy : t.policy = h.policy := by
    obtain ⟨-, rfl⟩ := start_eq_next.mp hs
    exact hsame.policy.symm
  exact ⟨fun hp => ht.strict (hpolicy.trans hp),
    fun hp e o hfail => e.alwaysFatal_iff.mp (ht.recoverable (hpolicy.trans hp) e o hfail)⟩

end Sys2Proof.Machine

/-! # Proofs: a run against the instructions of its stream (44_engine.md R204 to R206) -/

namespace Sys2Proof

/-! ## Only the bytes of the instruction matter (20_memory.md R58) -/

/-- Bytes after the instruction are left as they are. -/
theorem decodeOperands_append {k : Kind} {bs rest : List Byte} {i : Instr} (h : decodeOperands k bs = .ok (i, rest))
    (more : List Byte) : decodeOperands k (bs ++ more) = .ok (i, rest ++ more) := by
  obtain ⟨b0, tail, rfl, hcases⟩ := decodeOperands_cases h
  rcases hcases with ⟨rfl, b1, rfl, rfl⟩ | ⟨rfl, b1, rfl, rfl⟩ | ⟨rfl, imm, hr, rfl⟩ | ⟨rfl, rfl, rfl⟩ | ⟨rfl, rfl, rfl⟩ |
    ⟨rfl, rfl, rfl⟩
  case inr.inr.inl =>
    rcases readImm_cases hr with ⟨hw, lo, rfl, rfl⟩ | ⟨hw, lo, hi, rfl, rfl⟩ <;>
      simp [decodeOperands, decodeImmediateForm, hw, readImm]
  all_goals rfl

/-- An instruction read from the longest instruction's bytes is the one at the head of all the bytes. -/
theorem decode_of_decode_take {T : OpcodeTable} {bs rest : List Byte} {i : Instr}
    (h : decode T (bs.take longestInstr) = .ok (i, rest)) : decode T bs = .ok (i, bs.drop i.length) := by
  obtain ⟨b0, tail, htake, hk, hd⟩ := decode_eq_ok_iff.mp h
  have hall := decodeOperands_append hd (bs.drop longestInstr)
  rw [List.take_append_drop] at hall
  obtain ⟨b0', tail', rfl⟩ : ∃ b tl, bs = b :: tl := by
    cases bs with
    | nil => cases htake
    | cons b tl => exact ⟨b, tl, rfl⟩
  obtain rfl := (List.cons.inj htake).1
  obtain ⟨-, hrest⟩ := decodeOperands_length hall
  exact decode_eq_ok_iff.mpr ⟨_, tail', rfl, hk, hrest ▸ hall⟩

/-- An instruction at the head of the bytes is read from the longest instruction's bytes, and its own bytes are taken. -/
theorem decode_take_of_decode {T : OpcodeTable} {bs rest : List Byte} {i : Instr} (h : decode T bs = .ok (i, rest)) :
    rest = bs.drop i.length ∧ ∃ rest', decode T (bs.take longestInstr) = .ok (i, rest') := by
  obtain ⟨b0, tail, rfl, hk, hd⟩ := decode_eq_ok_iff.mp h
  obtain ⟨hlen, hrest⟩ := decodeOperands_length hd
  have hle := length_of_decodeOperands hd
  have hmax := i.length_le_three
  have htake : i.kind.length b0 ≤ ((b0 :: tail).take longestInstr).length := by
    rw [List.length_take, longestInstr]
    omega
  obtain ⟨i', hi', -⟩ := exists_decodeOperands (tail := tail.take 2) htake
  have htake' : decode T ((b0 :: tail).take longestInstr) = .ok (i', _) := (decode_of_classify hk _).trans hi'
  have heq := (decode_of_decode_take htake').symm.trans h
  obtain rfl : i' = i := (Prod.mk.inj (Except.ok.inj heq)).1
  exact ⟨hrest, _, htake'⟩

end Sys2Proof

namespace Sys2Proof.Machine

/-! ## The stream -/

@[simp] theorem length_streamBytes (s : State) : s.streamBytes.length = s.len := by simp [State.streamBytes]

theorem drop_streamBytes_of_lt {s : State} {o : Nat} (h : o < s.len) :
    s.streamBytes.drop o = s.buf.read o :: s.streamBytes.drop (o + 1) := by
  rw [List.drop_eq_getElem_cons (by simpa using h)]
  simp [State.streamBytes]

theorem drop_streamBytes_of_le {s : State} {o : Nat} (h : (s.len : Nat) ≤ o) : s.streamBytes.drop o = [] :=
  List.drop_of_length_le (by simpa using h)

/-- Reading on from an offset gives the bytes of the stream there, as far as it goes. -/
theorem filterMap_readByte_range' (s : State) (n o : Nat) :
    (List.range' o n).filterMap s.readByte = (s.streamBytes.drop o).take n := by
  induction n generalizing o with
  | zero => simp
  | succ n ih =>
    rw [List.range'_succ]
    by_cases h : o < s.len
    · rw [List.filterMap_cons_some (readByte_below s o h), ih, drop_streamBytes_of_lt h, List.take_succ_cons]
    · rw [List.filterMap_cons_none (readByte_none s o (by omega)), ih, drop_streamBytes_of_le (by omega),
        drop_streamBytes_of_le (by omega), List.take_nil, List.take_nil]

theorem bytesAt_eq_take (s : State) (o : Nat) : s.bytesAt o = (s.streamBytes.drop o).take longestInstr :=
  filterMap_readByte_range' s longestInstr o

/-! ## From the instructions to the run -/

/-- From an instruction at the cursor that decodes or is skipped, two steps append its record and pass it. -/
theorem runSteps_of_decode {s : State} {i : Instr} {rest : List Byte} (hst : s.st = .awaitingOpcode)
    (hguard : guardFires s = false) (hd : decode s.T (s.bytesAt s.cur) = .ok (i, rest))
    (hc : conditionOf i = none ∨ s.policy = .recoverable) (n : Nat) :
    s.cur + i.length ≤ s.len ∧
      runSteps (n + 2) s = runSteps n (complete (recordOf s.C s.cur i) i.length { s with iter := s.iter + 1 }) := by
  obtain ⟨hclassify, hrun⟩ := step_of_decode hst hguard hd
  obtain ⟨-, -, hops⟩ := opcode_of_decode hd
  have hfits := (fits_of_decodeOperands hops).1
  refine ⟨hfits, ?_⟩
  rw [runSteps_succ_next hclassify, runSteps_succ_next (hrun.trans (exec_eq_complete hc hfits))]
  rfl

/-- From any cursor on, a row of instructions that decode or are skipped runs to the end, by induction on the row. -/
theorem runSteps_of_parsesAs {is : List Instr} {s : State} (hst : s.st = .awaitingOpcode) (hcur : s.cur ≤ s.len)
    (hparse : ParsesAs s.T is (s.streamBytes.drop s.cur))
    (hc : ∀ i ∈ is, conditionOf i = none ∨ s.policy = .recoverable)
    (hlimit : ∀ m, s.maxIterations = some m → s.iter + is.length ≤ m) :
    runSteps (2 * is.length + 1) s = .next
      { s with st := .done, cur := s.len, iter := s.iter + is.length, out := s.out ++ recordsFrom s.C s.cur is } := by
  induction is generalizing s with
  | nil =>
    have hend : s.cur = s.len := by
      have hlen := congrArg List.length hparse
      simp only [List.length_drop, length_streamBytes, List.length_nil] at hlen
      omega
    rw [List.length_nil, runSteps_succ_next (step_of_end hst hend)]
    simp [recordsFrom, hend]
  | cons i is ih =>
    obtain ⟨rest, hd, hparse⟩ := hparse
    obtain ⟨hrest, rest', hd'⟩ := decode_take_of_decode hd
    rw [← bytesAt_eq_take] at hd'
    have hguard : guardFires s = false := (guardFires_eq_false_iff s).mpr fun m hm => by
      have := hlimit m hm
      rw [List.length_cons] at this
      omega
    obtain ⟨hfits, hrun⟩ := runSteps_of_decode hst hguard hd' (hc i List.mem_cons_self) (2 * is.length + 1)
    rw [List.drop_drop] at hrest
    have hih := ih (s := complete (recordOf s.C s.cur i) i.length { s with iter := s.iter + 1 }) rfl hfits
      (hrest ▸ hparse) (fun j hj => hc j (List.mem_cons_of_mem i hj)) fun m hm => by
        have := hlimit m hm
        simp only [complete_iter, List.length_cons] at this ⊢
        omega
    rw [List.length_cons, Nat.mul_succ, Nat.add_right_comm, hrun, hih]
    simp [complete, recordsFrom, Nat.add_comm, Nat.add_left_comm]

/-- Settles O49: the run of the whole row, from offset 0. -/
theorem parsedStreamYieldsItsRecords : Obligations.ParsedStreamYieldsItsRecords := by
  intro h s is hs hparse hc hlimit
  obtain ⟨-, rfl⟩ := start_eq_next.mp hs
  have hrun := runSteps_of_parsesAs (s := h.initial) rfl (Nat.zero_le _) hparse hc fun m hm => by
    simpa [StartInput.initial] using hlimit m hm
  simpa [StartInput.initial] using hrun

/-! ## From the run to the instructions -/

/-- Records that cover the stream from an offset on, each of what its bytes decode to, are those of a parse. -/
theorem exists_parsesAs_of_covers {s : State} {o : Nat} {rs : List Record} (hcovers : CoversFrom o rs s.len)
    (hsound : ∀ r ∈ rs, ∃ i rest, decode s.T (s.bytesAt r.offset) = .ok (i, rest) ∧ r = recordOf s.C r.offset i) :
    ∃ is, ParsesAs s.T is (s.streamBytes.drop o) ∧ rs = recordsFrom s.C o is := by
  induction rs generalizing o with
  | nil => exact ⟨[], drop_streamBytes_of_le (Nat.le_of_eq hcovers.symm), rfl⟩
  | cons r rs ih =>
    obtain ⟨rfl, hcovers⟩ := hcovers
    obtain ⟨i, rest, hd, hr⟩ := hsound r List.mem_cons_self
    obtain ⟨is, hparse, hrs⟩ := ih hcovers fun r' hr' => hsound r' (List.mem_cons_of_mem r hr')
    have hlen : r.length = i.length := by rw [hr, recordOf_length]
    rw [bytesAt_eq_take] at hd
    rw [hlen] at hparse hrs
    refine ⟨i :: is, ⟨_, decode_of_decode_take hd, ?_⟩, ?_⟩
    · rwa [List.drop_drop]
    · rw [recordsFrom, ← hr, hrs]

/-- Each of the instructions has its record. -/
theorem exists_recordOf_mem_recordsFrom {C : Catalog} {o : Nat} {is : List Instr} {i : Instr} (hi : i ∈ is) :
    ∃ o', recordOf C o' i ∈ recordsFrom C o is := by
  induction is generalizing o with
  | nil => cases hi
  | cons j is ih =>
    rcases List.mem_cons.mp hi with rfl | hi
    · exact ⟨o, List.mem_cons_self⟩
    · obtain ⟨o', ho'⟩ := ih (o := o + j.length) hi
      exact ⟨o', List.mem_cons_of_mem _ ho'⟩

theorem SameInputs.streamBytes_eq {s t : State} (h : SameInputs s t) : s.streamBytes = t.streamBytes := by
  rw [State.streamBytes, State.streamBytes, h.buf, h.len]

/-- Settles O50: in `Done` the invariant's records cover the whole stream and are what its bytes decode to. -/
theorem finishedRunParsedItsStream : Obligations.FinishedRunParsedItsStream := by
  intro h s t hs hr hdone
  obtain ⟨ht, hsame⟩ := hr.runInv_sameInputs hs
  obtain ⟨is, hparse, hout⟩ := exists_parsesAs_of_covers (ht.finished hdone ▸ ht.covers) ht.sound
  rw [hsame.streamBytes_eq, hsame.T, hsame.C]
  refine ⟨is, hparse, hout, fun hp i hi => ?_⟩
  have hpolicy : t.policy = .strict := by
    obtain ⟨-, rfl⟩ := start_eq_next.mp hs
    exact hsame.policy.symm.trans hp
  obtain ⟨o, ho⟩ := exists_recordOf_mem_recordsFrom (C := t.C) (o := 0) hi
  exact (isDecoded_recordOf t.C o i).mp (ht.strict hpolicy _ (hout ▸ ho))

end Sys2Proof.Machine

/-! # Proofs: the default table, the extractor's bound, and the checks of a start
(40_classifier_extractor_catalog.md R102, R104, R110, R115) -/

namespace Sys2Proof

/-- Settles O3: the default table looked up at each of the 256 bytes. -/
theorem defaultTableRecognisesThirtyBytes : Obligations.DefaultTableRecognisesThirtyBytes := by
  unfold Obligations.DefaultTableRecognisesThirtyBytes
  decide

/-- Masking first bounds the value, and the shift keeps the order. -/
theorem extract_le (b mask : Byte) (shift : Nat) : extract b mask shift ≤ mask >>> shift := by
  rw [extract, BitVec.le_def, BitVec.toNat_ushiftRight, BitVec.toNat_ushiftRight, BitVec.toNat_and]
  simpa only [Nat.shiftRight_eq_div_pow] using Nat.div_le_div_right Nat.and_le_right

/-- Settles O7: the bound is that of the mask, and mask 0 leaves nothing. -/
theorem extractIsBoundedByItsMask : Obligations.ExtractIsBoundedByItsMask :=
  fun b mask shift _ => ⟨rfl, extract_le b mask shift, by simp [extract]⟩

/-- No two kinds have one code. -/
theorem Kind.code_injective {k k' : Kind} (h : k.code = k'.code) : k = k' := by
  have hk := (Kind.ofCode_eq_some k.code k).mpr rfl
  have hk' := (Kind.ofCode_eq_some k.code k').mpr h
  exact Option.some.inj (hk.symm.trans hk')

theorem Kind.ofCode_eq_none (c : BitVec 3) : Kind.ofCode c = none ↔ 6 ≤ c.toNat := by
  revert c; decide

end Sys2Proof

namespace Sys2Proof.Machine

/-! ## The order of an accepted table (decision D13) -/

/-- What `specificFirst` asks of an entry and a later one. -/
abbrev SuppliedEntry.MayPrecede (e f : SuppliedEntry) : Prop :=
  e.kind = f.kind ∨ e.overlaps f = false ∨ e.moreSpecific f = true

/-- The check asks it of every pair of entries. -/
theorem specificFirstHolds_iff (t : List SuppliedEntry) :
    specificFirstHolds t = true ↔ t.Pairwise SuppliedEntry.MayPrecede := by
  induction t with
  | nil => simp [specificFirstHolds]
  | cons e es ih => simp [specificFirstHolds, ih, SuppliedEntry.MayPrecede, or_assoc]

theorem SuppliedEntry.overlaps_iff (e f : SuppliedEntry) :
    e.overlaps f = true ↔ (e.pattern ^^^ f.pattern) &&& e.mask &&& f.mask = 0 := by
  simp [SuppliedEntry.overlaps]

theorem SuppliedEntry.moreSpecific_iff (e f : SuppliedEntry) :
    e.moreSpecific f = true ↔ e.mask &&& f.mask = f.mask ∧ e.mask ≠ f.mask := by
  simp [SuppliedEntry.moreSpecific]

/-- Two entries that match one byte can match a common byte. -/
theorem overlaps_of_hits {e f : OpcodeEntry} {b : Byte} (he : b &&& e.mask = e.pattern) (hf : b &&& f.mask = f.pattern) :
    (suppliedEntry e).overlaps (suppliedEntry f) = true := by
  rw [SuppliedEntry.overlaps_iff]
  simp only [suppliedEntry, ← he, ← hf]
  have hbits : ∀ x m n : Bool, ((x && m ^^ x && n) && m && n) = false := by decide
  ext i hi
  simp [hbits]

/-- Settles O2: the answering entry stands first, so the check was asked of it and the other entry. -/
theorem acceptedTableAnswersMoreSpecificKind : Obligations.AcceptedTableAnswersMoreSpecificKind := by
  intro T hT b k hk f hf hit hne
  obtain ⟨before, e, after, rfl, hehit, rfl, hmiss⟩ := (classify_eq_some_iff T b k).mp hk
  obtain ⟨-, -, hspecific⟩ := (failedTableChecks_eq_nil _).mp hT
  have hafter : f ∈ after := by
    rcases List.mem_append.mp hf with hf | hf
    · exact absurd hit (hmiss f hf)
    · exact (List.mem_cons.mp hf).resolve_left fun h => hne (h ▸ rfl)
  have hpair := List.pairwise_map.mp ((specificFirstHolds_iff _).mp hspecific)
  have hef := List.rel_of_pairwise_cons (List.pairwise_append.mp hpair).2.1 hafter
  rcases hef with hkind | hover | hmore
  · exact absurd (Kind.code_injective hkind).symm hne
  · simp [overlaps_of_hits hehit hit] at hover
  · exact ⟨e, by simp, hehit, rfl, (SuppliedEntry.moreSpecific_iff _ _).mp hmore⟩

/-! ## The failed checks -/

/-- A check is listed exactly where it fails. -/
@[simp] theorem mem_failedCheck (c c' : StartCheck) (holds : Bool) :
    c ∈ failedCheck c' holds ↔ c = c' ∧ holds = false := by
  cases holds <;> simp [failedCheck]

theorem kindCodeHolds_eq_false (t : List SuppliedEntry) :
    kindCodeHolds t = false ↔ ∃ e ∈ t, 6 ≤ e.kind.toNat := by
  simp [kindCodeHolds, Kind.ofCode_eq_none]

theorem patternInMaskHolds_eq_false (t : List SuppliedEntry) :
    patternInMaskHolds t = false ↔ ∃ e ∈ t, e.pattern &&& ~~~e.mask ≠ 0 := by
  simp [patternInMaskHolds]

theorem specificFirstHolds_eq_false (t : List SuppliedEntry) :
    specificFirstHolds t = false ↔ ∃ i j : Fin t.length, i < j ∧ t[i].kind ≠ t[j].kind ∧
      (t[i].pattern ^^^ t[j].pattern) &&& t[i].mask &&& t[j].mask = 0 ∧
      ¬(t[i].mask &&& t[j].mask = t[j].mask ∧ t[i].mask ≠ t[j].mask) := by
  rw [← Bool.not_eq_true, specificFirstHolds_iff, List.pairwise_iff_get]
  simp only [SuppliedEntry.MayPrecede, ← Bool.not_eq_true, SuppliedEntry.overlaps_iff, SuppliedEntry.moreSpecific_iff,
    not_forall, not_or, not_not, exists_prop]
  rfl

theorem distinctNamesHolds_eq_false (C : Catalog) :
    distinctNamesHolds C = false ↔
      ∃ f w f' w', (lookup C f w).name = (lookup C f' w').name ∧ ¬(f = f' ∧ w = w') := by
  rw [← Bool.not_eq_true, distinctNamesHolds_iff]
  simp

/-- A check of the table is among the failed ones exactly when a supplied table fails it. -/
theorem mem_failedChecks (h : StartInput) (c : StartCheck) :
    c ∈ h.failedChecks ↔ (∃ tb, h.table = some tb ∧ c ∈ failedTableChecks tb) ∨
      ∃ C, h.catalog = some C ∧ c = .distinctNames ∧ distinctNamesHolds C = false := by
  cases ht : h.table <;> cases hC : h.catalog <;> simp [StartInput.failedChecks, ht, hC]

/-- The start by its failed checks. -/
theorem start_eq (h : StartInput) :
    start h = if h.failedChecks = [] then .next h.initial else .refused (.startRefused h.failedChecks) := rfl

/-- Settles O39: the list is that of the failed checks, each told by what it forbids. -/
theorem startRefusesByNamedCheck : Obligations.StartRefusesByNamedCheck := by
  intro h
  refine ⟨h.failedChecks, start_eq h, ?_, ?_, ?_, ?_⟩
  · simp [mem_failedChecks, failedTableChecks, kindCodeHolds_eq_false]
  · simp [mem_failedChecks, failedTableChecks, patternInMaskHolds_eq_false]
  · simp [mem_failedChecks, failedTableChecks, specificFirstHolds_eq_false]
  · simp [mem_failedChecks, failedTableChecks, distinctNamesHolds_eq_false]

/-- Settles O8: an accepted start loads a catalog that passed the check; a supplied one that fails it is refused. -/
theorem acceptedCatalogHasDistinctNames : Obligations.AcceptedCatalogHasDistinctNames := by
  refine ⟨fun h t hstart f w f' w' hname => ?_, fun h C hC hshared => ?_⟩
  · have hcatalog := (acceptedStartMeetsInv h t hstart).catalog
    exact Prod.mk.inj ((distinctNamesHolds_iff t.C).mp hcatalog (f, w) (f', w') hname)
  · have hmem : .distinctNames ∈ h.failedChecks :=
      (mem_failedChecks h _).mpr (.inr ⟨C, hC, rfl, (distinctNamesHolds_eq_false C).mpr hshared⟩)
    refine ⟨h.failedChecks, ?_, hmem⟩
    rw [start_eq, if_neg (List.ne_nil_of_mem hmem)]

/-- Settles O11: the name of a descriptor is a function of the other two fields. -/
theorem descriptorsEqualIffIndexAndWidth : Obligations.DescriptorsEqualIffIndexAndWidth := by
  intro C f w f' w'
  refine ⟨fun h => h ▸ ⟨rfl, rfl⟩, fun ⟨hindex, hwidth⟩ => ?_⟩
  obtain rfl : f = f' := hindex
  obtain rfl : w = w' := hwidth
  rfl

/-- Settles O54: the general forms by the definition, the examples by its evaluation. -/
theorem textOfDecodedRecords : Obligations.TextOfDecodedRecords :=
  ⟨fun _ _ _ _ _ => rfl, fun _ _ _ _ _ => rfl, by decide, by decide, by decide⟩

end Sys2Proof.Machine

/-! # Proofs: the buffer, and the placement of an instruction (20_memory.md R50, log 1 and log 10) -/

namespace Sys2Proof.Machine

/-! ## The canonical form -/

theorem Memory.wfFrom_cons {lo a : Nat} {v : Byte} {m : Memory} :
    Memory.wfFrom lo ((a, v) :: m) = true ↔
      lo ≤ a ∧ a < Config.bufMax ∧ v ≠ Memory.unlisted ∧ Memory.wfFrom (a + 1) m = true := by
  simp [Memory.wfFrom, and_assoc]

theorem Memory.read_cons (a : Nat) (v : Byte) (m : Memory) (x : Nat) :
    Memory.read ((a, v) :: m) x = if x = a then v else m.read x := rfl

/-- The first address a canonical buffer lists is the lowest that reads as something else than an unlisted one. -/
theorem Memory.head_le_of_read_ne {lo a : Nat} {v : Byte} {m : Memory} (hm : Memory.wfFrom lo ((a, v) :: m) = true)
    {x : Nat} (hx : Memory.read ((a, v) :: m) x ≠ Memory.unlisted) : a ≤ x := by
  obtain ⟨-, ha, hv, hm⟩ := Memory.wfFrom_cons.mp hm
  by_contra hlt
  exact hx (Memory.read_below (Memory.wfFrom_cons.mpr ⟨Nat.le_refl a, ha, hv, hm⟩) (Nat.lt_of_not_le hlt))

/-- Canonical buffers that read the same list the same, by induction on the listing. -/
theorem Memory.eq_of_read_eq {lo lo' : Nat} {m m' : Memory} (hm : Memory.wfFrom lo m = true)
    (hm' : Memory.wfFrom lo' m' = true) (h : ∀ x, m.read x = m'.read x) : m = m' := by
  induction m generalizing lo lo' m' with
  | nil =>
    cases m' with
    | nil => rfl
    | cons c' m' =>
      obtain ⟨a', v'⟩ := c'
      obtain ⟨-, -, hv', -⟩ := Memory.wfFrom_cons.mp hm'
      exact absurd (by simpa [Memory.read_cons] using (h a').symm) hv'
  | cons c m ih =>
    obtain ⟨a, v⟩ := c
    obtain ⟨-, -, hv, htail⟩ := Memory.wfFrom_cons.mp hm
    have hread : Memory.read ((a, v) :: m) a = v := by simp [Memory.read_cons]
    cases m' with
    | nil => exact absurd (hread.symm.trans (h a)) hv
    | cons c' m' =>
      obtain ⟨a', v'⟩ := c'
      obtain ⟨-, -, hv', htail'⟩ := Memory.wfFrom_cons.mp hm'
      have hread' : Memory.read ((a', v') :: m') a' = v' := by simp [Memory.read_cons]
      have hle : a ≤ a' := Memory.head_le_of_read_ne hm (by rw [h, hread']; exact hv')
      have hle' : a' ≤ a := Memory.head_le_of_read_ne hm' (by rw [← h, hread]; exact hv)
      obtain rfl : a = a' := Nat.le_antisymm hle hle'
      obtain rfl : v = v' := hread.symm.trans ((h a).trans hread')
      congr 1
      refine ih htail htail' fun x => ?_
      by_cases hx : x = a
      · subst hx
        rw [Memory.read_below htail (Nat.lt_succ_self x), Memory.read_below htail' (Nat.lt_succ_self x)]
      · simpa [Memory.read_cons, hx] using h x

/-- Settles O53: from address 0 on. -/
theorem canonicalBuffersAreEqualWhenTheyReadTheSame : Obligations.CanonicalBuffersAreEqualWhenTheyReadTheSame :=
  fun _ _ hm hm' h => Memory.eq_of_read_eq hm hm' h

/-! ## Placing an instruction -/

/-- Placing bytes above an address leaves it as it was. -/
theorem Memory.read_writeAll_below {m : Memory} (hm : m.wf = true) {a : Nat} {vs : List Byte}
    (h : a + vs.length ≤ Config.bufMax) {x : Nat} (hx : x < a) : (m.writeAll a vs).read x = m.read x := by
  induction vs generalizing m a with
  | nil => rfl
  | cons v vs ih =>
    rw [List.length_cons] at h
    rw [Memory.writeAll, ih (Memory.wf_write hm a v) (by omega) (by omega), Memory.read_write hm (by omega),
      if_neg (by omega)]

/-- The bytes placed are those read there. -/
theorem Memory.read_writeAll {m : Memory} (hm : m.wf = true) {a : Nat} {vs : List Byte}
    (h : a + vs.length ≤ Config.bufMax) (i : Nat) (hi : i < vs.length) : (m.writeAll a vs).read (a + i) = vs[i] := by
  induction vs generalizing m a i with
  | nil => cases hi
  | cons v vs ih =>
    rw [List.length_cons] at h hi
    cases i with
    | zero =>
      rw [Memory.writeAll, Memory.read_writeAll_below (Memory.wf_write hm a v) (by omega) (by omega),
        Memory.read_write hm (by omega)]
      simp
    | succ i =>
      rw [Memory.writeAll, ← Nat.add_assoc, Nat.add_right_comm, ih (Memory.wf_write hm a v) (by omega) i (by omega)]
      rfl

/-- The bytes placed at the cursor lie below the length and are read there. -/
theorem readByte_withBytesAtCursor {s : State} {bs : List Byte} (hbuf : s.buf.wf = true)
    (hroom : s.cur + bs.length ≤ 256) (i : Nat) (hi : i < bs.length) :
    (s.withBytesAtCursor bs).readByte (s.cur + i) = some bs[i] := by
  have hlt : s.cur + i < (s.withBytesAtCursor bs).len := by
    simp only [State.withBytesAtCursor]
    omega
  rw [readByte_below _ _ hlt]
  exact congrArg some (Memory.read_writeAll hbuf hroom i hi)

/-- As many bytes as the longest instruction has, placed at the cursor, are all the bytes an instruction is read from. -/
theorem bytesAt_withBytesAtCursor {s : State} {bs : List Byte} (hbuf : s.buf.wf = true)
    (hlen : bs.length = longestInstr) (hroom : s.cur + longestInstr ≤ 256) :
    (s.withBytesAtCursor bs).bytesAt s.cur = bs := by
  have hread := readByte_withBytesAtCursor hbuf (hlen ▸ hroom)
  obtain ⟨x, y, z, rfl⟩ := List.length_eq_three.mp hlen
  have hx : (s.withBytesAtCursor [x, y, z]).readByte s.cur = some x := hread 0 (by simp)
  have hy : (s.withBytesAtCursor [x, y, z]).readByte (s.cur + 1) = some y := hread 1 (by simp)
  have hz : (s.withBytesAtCursor [x, y, z]).readByte (s.cur + 1 + 1) = some z := hread 2 (by simp)
  simp [State.bytesAt, longestInstr, List.range', hx, hy, hz]

/-- The classification of an instruction that can be read. -/
theorem classified_of_decode {s : State} {i : Instr} {rest : List Byte}
    (hd : decode s.T (s.bytesAt s.cur) = .ok (i, rest)) :
    s.classified = { s with st := .decodingOperands i.kind, iter := s.iter + 1 } := by
  obtain ⟨hlt, hk, -⟩ := opcode_of_decode hd
  simp [State.classified, readByte_below s _ hlt, hk]

/-- The bytes of a table word that the host reads as `i` decode to it. -/
theorem decode_of_decodeTableWord {nbits w : Nat} {i : Instr} (h : decodeTableWord nbits w = some i) :
    ∃ rest, decode defaultTable (tableWordBytes nbits w) = .ok (i, rest) := by
  unfold decodeTableWord at h
  split at h
  · obtain rfl := Option.some.inj h
    exact ⟨_, ‹_›⟩
  · cases h

/-- Settles O55: the placed bytes are the word's, so the step reads `i`, whose kind the placement has classified. -/
theorem placedWordRunsNext : Obligations.PlacedWordRunsNext := by
  intro s nbits w i hT hbuf hroom hword
  obtain ⟨rest, hdecode⟩ := decode_of_decodeTableWord hword
  have hbytes := bytesAt_withBytesAtCursor (bs := tableWordBytes nbits w) hbuf (by simp [tableWordBytes]) hroom
  have hd : decode (s.withBytesAtCursor (tableWordBytes nbits w)).T
      ((s.withBytesAtCursor (tableWordBytes nbits w)).bytesAt s.cur) = .ok (i, rest) := by
    rw [hbytes]
    exact hT ▸ hdecode
  obtain ⟨-, -, hops⟩ := opcode_of_decode hd
  rw [State.withFetchWord, classified_of_decode hd]
  exact ⟨step_eq_exec rfl hops, rfl⟩

end Sys2Proof.Machine
